-- ==== Sys2Proof/Word.lean ====
section
/-! DEFINITION. The block's value types. The widths are those of 00_scope.md R9 and 10_state.md R42. -/

namespace Sys2Proof

/-- A data byte, 8 bits (R9). -/
abbrev Byte := BitVec 8

/-- A 16-bit value: a capacity, a length, a checksum or a reading field (R9). -/
abbrev Half := BitVec 16

/-- A host-memory address, ADDR_W = 32 bits (R8, R24). -/
abbrev Addr := BitVec 32

/-- The command word CMD, 64 bits (30_encoding.md R71). -/
abbrev CmdWord := BitVec 64

/-- The response word RESP, 32 bits (30_encoding.md R80). -/
abbrev RespWord := BitVec 32

end Sys2Proof
end

