-- ==== Sys2Proof/Syntax.lean ====
section
/-! DEFINITION. The commands: one constructor per row of spec/opcode_table.json (30_encoding.md R78). -/

namespace Sys2Proof

/-- A command with its operands as R72 to R76 give them. The `now` input is presented beside the word, not in it
(R77), so it is no operand here. -/
inductive Instr where
  /-- ARM, format A (R72): the buffer's base address and its capacity. -/
  | arm (base : Addr) (cap : Half)
  /-- BYTE, format B (R73): the received byte. -/
  | byte (b : Byte)
  /-- TICK, format N (R74). -/
  | tick
  /-- STATUS, format N (R75). -/
  | status
  /-- FEED, format B (R76): the byte fed to the parser. -/
  | feed (b : Byte)
  deriving DecidableEq, Repr

end Sys2Proof
end

