-- ==== Sys2Proof/Decode.lean ====
section
/-! DEFINITION. Decoding a command word, total on every 64-bit word (30_encoding.md R83), and after it the encoder
written from the formats of R71 to R76. -/

namespace Sys2Proof

/-- Why a command word is illegal (30_encoding.md R79). -/
inductive IllegalWord where
  /-- `op` is 0x0 or one of 0x6 to 0xF. -/
  | reservedOp
  /-- A defined `op` with a non-zero bit where its format requires 0. -/
  | reservedBits
  deriving DecidableEq, Repr

/-- The outcome of decoding: one of the five commands, or ILLEGAL with its reason (R83). -/
inductive Decoded where
  | legal (i : Instr)
  | illegal (why : IllegalWord)
  deriving DecidableEq, Repr

/-- The bits `hi` down to `lo` of a command word, bit 0 the least significant (00_scope.md R10). -/
def cmdField (w : CmdWord) (hi lo : Nat) : BitVec (hi - lo + 1) :=
  w.extractLsb hi lo

/-- A decoded command if the format's must-be-zero bits are 0, ILLEGAL otherwise (R79). -/
def whenZero {n : Nat} (zeros : BitVec n) (i : Instr) : Decoded :=
  if zeros = 0 then .legal i else .illegal .reservedBits

/-- `decode(CMD)` of R83: first select by `op`, then check the bits the format marks 0. -/
def decode (w : CmdWord) : Decoded :=
  if cmdField w 63 60 = 0x1#4 then whenZero (cmdField w 59 48) (.arm (cmdField w 31 0) (cmdField w 47 32))
  else if cmdField w 63 60 = 0x2#4 then whenZero (cmdField w 59 8) (.byte (cmdField w 7 0))
  else if cmdField w 63 60 = 0x3#4 then whenZero (cmdField w 59 0) .tick
  else if cmdField w 63 60 = 0x4#4 then whenZero (cmdField w 59 0) .status
  else if cmdField w 63 60 = 0x5#4 then whenZero (cmdField w 59 8) (.feed (cmdField w 7 0))
  else .illegal .reservedOp

/-- The word of a command, field by field from the most significant bits down (R71 to R76, R90). -/
def encode : Instr → CmdWord
  | .arm base cap => 0x1#4 ++ 0#12 ++ cap ++ base
  | .byte b => 0x2#4 ++ 0#52 ++ b
  | .tick => 0x3#4 ++ 0#60
  | .status => 0x4#4 ++ 0#60
  | .feed b => 0x5#4 ++ 0#52 ++ b

/-- What the decoder reads from an instruction whose bits are `w`, numbered as spec/opcode_table.json numbers them;
bits above `nbits` are 0. A command is one 64-bit word (R71), so a value that needs more bits is no command (log 17). -/
def decodeTableWord (nbits w : Nat) : Option Instr :=
  if w % 2 ^ nbits < 2 ^ 64 then
    match decode (BitVec.ofNat 64 (w % 2 ^ nbits)) with
    | .legal i => some i
    | .illegal _ => none
  else none

end Sys2Proof
end

