-- ==== Sys2Proof/Config.lean ====
section
/-! DEFINITION. The parameters of 00_scope.md R8, fixed for the lifetime of the block (10_state.md R39), and the
free values: contents the spec leaves unspecified, which nothing in Lean can evaluate. -/

namespace Sys2Proof

/-- ZERO_DATA_POLICY: what the parser does with a frame whose LEN is 2 (41_frame_parser.md R143). -/
inductive ZeroDataPolicy where
  | skipData
  | oneByteData
  | stallInData
  deriving DecidableEq, Repr

/-- The parameters of R8. `tickMaxInterval` is the environment's: no command reads it. -/
structure Config where
  /-- IDLE_TIMEOUT, in ticks of the timestamp. -/
  idleTimeout : Nat
  /-- FRAME_CAP, in bytes. -/
  frameCap : Nat
  /-- MAX_XFER, the largest capacity ARM accepts. -/
  maxXfer : Nat
  /-- TS_W, the width of the `now` port in bits. -/
  tsW : Nat
  /-- ZERO_DATA_POLICY. -/
  zeroData : ZeroDataPolicy
  /-- TICK_MAX_INTERVAL, a promise of the tick source (60_exceptions.md R193). -/
  tickMaxInterval : Nat
  deriving DecidableEq, Repr

/-- The reference values of R8's table. DESIGN CHOICE (log 1): the spec gives no value of its own; these are the
values its test vectors use. Unsafe only for a statement about `State.reset` itself. -/
def Config.reference : Config :=
  { idleTimeout := 5, frameCap := 32, maxXfer := 64, tsW := 32, zeroData := .skipData, tickMaxInterval := 1 }

/-- The host-memory byte the host left at an address before the run wrote it (93_implementation_defined.md I7, I14).
A free value, safe (log 6): no body, so no proof knows it. -/
opaque Config.freeHostByte : Addr → Byte

/-- The frame-buffer byte at an offset that nothing has written since the reset of that number (I4, 10_state.md R34).
A free value, safe (log 7): no body, so no proof knows it. -/
opaque Config.freeFbByte : Nat → Nat → Byte

end Sys2Proof
end

