-- ==== Sys2Proof/Machine/State.lean ====
section
/-! DEFINITION. The state of the block and of what it acts on, as plain data (10_state.md), with the reset state
(70_reset_and_hazards.md R210). -/

namespace Sys2Proof.Machine

/-- Bytes by address, each listed byte one that has been written. The canonical form is `Memory.wf` (Ops.lean):
addresses strictly rising. An unlisted address holds no value here; what a read of it gives is said where it is read. -/
abbrev Memory := List Host.Cell

/-- P_STAGE, the parser's synchronisation stage (10_state.md R31). The eighth value of its 3 bits, 0, is never held
(log 13), so it has no constructor; `Stage.code` (Ops.lean) gives the register's bits. -/
inductive Stage where
  | awaitSync1
  | awaitSync2
  | readLenHi
  | readLenLo
  | readData
  | readChecksumHi
  | readChecksumLo
  deriving DecidableEq, Repr

/-- A reading: the 12 unsigned 16-bit fields of 30_encoding.md R87, in its order. -/
structure Reading where
  pm1_0_std : Half
  pm2_5_std : Half
  pm10_std : Half
  pm1_0_atm : Half
  pm2_5_atm : Half
  pm10_atm : Half
  count_bin0 : Half
  count_bin1 : Half
  count_bin2 : Half
  count_bin3 : Half
  count_bin4 : Half
  count_bin5 : Half
  deriving DecidableEq, Repr

/-- One event of the command order (20_memory.md R52): a command at the port, a reset, or an access of the host to its
own memory (log 12). -/
inductive PortEvent where
  /-- A command word presented with a `now` value (30_encoding.md R70, R77). -/
  | command (word : CmdWord) (now : Nat)
  /-- The reset input (70_reset_and_hazards.md R210). -/
  | rst
  /-- The host writes a byte of its memory (20_memory.md R50, R60). -/
  | hostStore (addr : Addr) (b : Byte)
  /-- The host reads a byte of its memory (R50, R53). -/
  | hostLoad (addr : Addr)
  /-- `FEED MemRead(addr, 1)`, one item of DRAIN (30_encoding.md R91): the host loads a byte and presents it to FEED. -/
  | drain (addr : Addr) (now : Nat)
  deriving DecidableEq, Repr

/-- Everything a step reads or changes. INVENTORY.md lists each field with its width, rule and reset value. -/
structure State where
  /-- The parameters of R8, constant: no step changes them (10_state.md R39; log 1). -/
  cfg : Config
  /-- ARMED (R23). -/
  armed : Bool
  /-- RX_BASE (R24). -/
  rxBase : Addr
  /-- RX_N (R25). -/
  rxN : Half
  /-- RX_IDX (R26). -/
  rxIdx : Half
  /-- RX_LAST, an unbounded count of ticks (R27, 30_encoding.md R77; log 10). -/
  rxLast : Nat
  /-- RX_OUT: false is `none`, true is `data(RX_OUTLEN)` (R28). -/
  rxOut : Bool
  /-- RX_OUTLEN (R29). -/
  rxOutlen : Half
  /-- P_STAGE (R31). -/
  pStage : Stage
  /-- P_IDX, 17 bits (R32). -/
  pIdx : BitVec 17
  /-- P_LEN (R33). -/
  pLen : Half
  /-- P_ACC (R35). -/
  pAcc : Half
  /-- FB by offset: the bytes written since the latest reset (R34; log 7). -/
  fb : Memory
  /-- How many resets the machine has performed; the model's own, it names FB's unspecified contents (log 7). -/
  resets : Nat
  /-- Host memory by address: the bytes written in this run (20_memory.md R50; log 6). -/
  mem : Memory
  /-- The `now` input as presented with the latest command (30_encoding.md R77; log 3). -/
  now : Nat
  /-- RESP of the latest event, absent where it returned no response (R37, 30_encoding.md R80; log 8). -/
  resp : Option RespWord
  /-- READING of the latest event, present only with OK (R38, 30_encoding.md R82; log 8). -/
  reading : Option Reading
  /-- The byte the latest event's host load returned (20_memory.md R53; log 8, 12). -/
  loaded : Option Byte
  /-- The command order still to be performed, oldest first (20_memory.md R52; log 2). -/
  pending : List PortEvent
  deriving DecidableEq, Repr

/-- Reasons to stop with a fault: there are none. The block has no trap and no fault (60_exceptions.md R180), so the
type has no constructor and no step can answer a fault (log 16). Safe. -/
inductive Fault where
  deriving DecidableEq, Repr

/-- Reasons the model refuses to go on. -/
inductive Refusal where
  /-- An instruction with no meaning yet, raised by an arm of `exec`. Safe. No arm raises it. -/
  | notModelled (mnemonic : String)
  /-- Raised by a host store into the armed buffer range while ARMED = 1 (host duty HD5, 20_memory.md R60,
  93_implementation_defined.md I6). Safe. -/
  | hostStoreIntoArmedBuffer
  /-- Raised by the port when a command that samples `now` comes with a value that does not fit its TS_W bits (host
  duty HD7, 93_implementation_defined.md I10). Safe. -/
  | timestampBeyondPort
  deriving DecidableEq, Repr

/-- The reset values of 70_reset_and_hazards.md R210 under the given parameters, with host memory as the host left it,
no output driven and no command waiting. -/
def State.resetWith (cfg : Config) : State :=
  { cfg := cfg
    armed := false
    rxBase := 0
    rxN := 0
    rxIdx := 0
    rxLast := 0
    rxOut := false
    rxOutlen := 0
    pStage := .awaitSync1
    pIdx := 0
    pLen := 0
    pAcc := 0
    fb := []
    resets := 0
    mem := []
    now := 0
    resp := none
    reading := none
    loaded := none
    pending := [] }

/-- The machine right after reset, with the reference parameters (log 1). -/
def State.reset : State := State.resetWith Config.reference

end Sys2Proof.Machine
end

