-- ==== Sys2Proof/Machine/Ops.lean ====
section
/-! DEFINITION. The named operations over memory, the frame buffer, the outputs and the reset of the parser. -/

namespace Sys2Proof.Machine

/-! ## Bytes by address -/

/-- The byte listed at an address, if any. -/
def Memory.byteAt : Memory → Nat → Option Byte
  | [], _ => none
  | c :: rest, a => if c.1 = a then some c.2 else Memory.byteAt rest a

/-- The memory with `b` at address `a`, keeping the addresses rising. -/
def Memory.setByte : Memory → Nat → Byte → Memory
  | [], a, b => [(a, b)]
  | c :: rest, a, b =>
    if a < c.1 then (a, b) :: c :: rest
    else if a = c.1 then (a, b) :: rest
    else c :: Memory.setByte rest a b

/-- Addresses strictly rise from `low` on and stay below `size`. -/
def Memory.risesFrom (size : Nat) : Nat → Memory → Bool
  | _, [] => true
  | low, c :: rest => decide (low ≤ c.1) && decide (c.1 < size) && Memory.risesFrom size (c.1 + 1) rest

/-- The canonical form of a memory of `size` bytes: strictly rising addresses, all below `size`. An unlisted address
holds no value, so no entry can equal what an unlisted address holds. -/
def Memory.wf (size : Nat) (m : Memory) : Bool := Memory.risesFrom size 0 m

/-! ## Host memory (20_memory.md R50, R55) -/

/-- The size of host memory: 2^32 bytes (R50). -/
def hostMemorySize : Nat := 2 ^ 32

/-- The byte a host load of `a` returns (R53): the byte this run wrote there, or what the host left there, which is a
free value (93_implementation_defined.md I7; log 6). -/
def State.hostByte (s : State) (a : Addr) : Byte := (s.mem.byteAt a.toNat).getD (Config.freeHostByte a)

/-- `MemWrite(addr, 1, b)` (R55). An address is 32 bits, so it is already modulo 2^32. -/
def State.memWrite (s : State) (a : Addr) (b : Byte) : State := { s with mem := s.mem.setByte a.toNat b }

/-! ## The frame buffer (10_state.md R34) -/

/-- `FB[i]` (00_scope.md R11): the byte written at offset `i` since the latest reset, or a free value (I4; log 7). -/
def State.fbByte (s : State) (i : Nat) : Byte := (s.fb.byteAt i).getD (Config.freeFbByte s.resets i)

/-- `FB[i] <- b` (R11). -/
def State.fbWrite (s : State) (i : Nat) (b : Byte) : State := { s with fb := s.fb.setByte i b }

/-- `FB[P_IDX] <- b; P_IDX <- P_IDX + 1`, the store of every stage but the first (41_frame_parser.md R134 to R139). -/
def State.fbPush (s : State) (b : Byte) : State :=
  { s.fbWrite s.pIdx.toNat b with pIdx := s.pIdx + 1 }

/-- The 3 bits of P_STAGE (10_state.md R31). -/
def Stage.code : Stage → BitVec 3
  | .awaitSync1 => 1
  | .awaitSync2 => 2
  | .readLenHi => 3
  | .readLenLo => 4
  | .readData => 5
  | .readChecksumHi => 6
  | .readChecksumLo => 7

/-! ## Outputs (30_encoding.md R80, R82) -/

/-- `RESP = {value[15:0], 0[11:0], code[3:0]}` (R80). -/
def respWord (code : BitVec 4) (value : Half) : RespWord := value ++ 0#12 ++ code

/-- `respond(code, value)` (R80). READING carries no value unless `emit` follows (R82). -/
def State.respond (s : State) (code : BitVec 4) (value : Half) : State :=
  { s with resp := some (respWord code value), reading := none }

/-- `emit(r)` (41_frame_parser.md R150). -/
def State.emit (s : State) (r : Reading) : State := { s with reading := some r }

/-- Field `i` of a reading, in the order of R87. -/
def Reading.field (r : Reading) : Fin 12 → Half
  | 0 => r.pm1_0_std
  | 1 => r.pm2_5_std
  | 2 => r.pm10_std
  | 3 => r.pm1_0_atm
  | 4 => r.pm2_5_atm
  | 5 => r.pm10_atm
  | 6 => r.count_bin0
  | 7 => r.count_bin1
  | 8 => r.count_bin2
  | 9 => r.count_bin3
  | 10 => r.count_bin4
  | 11 => r.count_bin5

/-- The 192 bits of READING: field 0 in the most significant 16 bits (R82). -/
def Reading.pack (r : Reading) : BitVec 192 :=
  r.pm1_0_std ++ r.pm2_5_std ++ r.pm10_std ++ r.pm1_0_atm ++ r.pm2_5_atm ++ r.pm10_atm
    ++ r.count_bin0 ++ r.count_bin1 ++ r.count_bin2 ++ r.count_bin3 ++ r.count_bin4 ++ r.count_bin5

/-! ## Recovery and reset

The block takes no exception: it saves no state on an error and transfers control nowhere (60_exceptions.md R180). What
an error of the parser does instead is `parserReset` (R184), and there is no return from it (R185). -/

/-- `parser_reset()` (41_frame_parser.md R131); FB is unchanged. -/
def State.parserReset (s : State) : State :=
  { s with pStage := .awaitSync1, pIdx := 0, pLen := 0, pAcc := 0 }

/-- ILLEGAL (30_encoding.md R79): code ILLEGAL_COMMAND, no register, FB byte or host-memory byte changes (log 9). -/
def State.illegalCommand (s : State) : State := s.respond 0xF 0

/-- The reset input (70_reset_and_hazards.md R210): every register at its reset value, FB unspecified anew, host memory
unchanged, no response. The rest of the command order and the `now` input are not the block's to change (log 14). -/
def State.applyReset (s : State) : State :=
  { State.resetWith s.cfg with mem := s.mem, resets := s.resets + 1, now := s.now, pending := s.pending }

end Sys2Proof.Machine
end

