-- ==== Sys2Proof/Machine/Operands.lean ====
section
/-! DEFINITION. How the rules read their operands: addresses, descriptors, big-endian pairs, indices and lengths. -/

namespace Sys2Proof.Machine

/-- `be16(hi, lo) = {hi[7:0], lo[7:0]}` (00_scope.md R11, 20_memory.md R51). -/
def be16 (hi lo : Byte) : Half := hi ++ lo

/-- `(acc + zext_16(b)) mod 2^16`, one step of the checksum (30_encoding.md R86, 10_state.md R35). -/
def addByte (acc : Half) (b : Byte) : Half := acc + b.setWidth 16

/-- The host address BYTE writes: `(RX_BASE + RX_IDX) mod 2^32`, before the increment (20_memory.md R55). -/
def State.bufferAddr (s : State) : Addr := s.rxBase + s.rxIdx.setWidth 32

/-- ARM's descriptor is invalid: a null base, a zero capacity or one above MAX_XFER (40_reception_engine.md R101). -/
def invalidDescriptor (cfg : Config) (base : Addr) (cap : Half) : Bool :=
  decide (base = 0) || decide (cap = 0) || decide (cfg.maxXfer < cap.toNat)

/-- The address lies in the range the engine owns: `[RX_BASE, RX_BASE + RX_N)` modulo 2^32 while ARMED = 1
(20_memory.md R60). -/
def State.ownsByte (s : State) (a : Addr) : Bool :=
  s.armed && decide ((a - s.rxBase).toNat < s.rxN.toNat)

/-- The frame offset of the checksum field, `4 + LEN - 2`, in full precision (41_frame_parser.md R137). -/
def checksumOffset (len : Half) : Nat := 4 + len.toNat - 2

/-- LEN is refused by ReadLenLo: below 2, or `4 + LEN > FRAME_CAP` in full precision (R136). -/
def badLength (cfg : Config) (len : Half) : Bool :=
  decide (len.toNat < 2) || decide (cfg.frameCap < 4 + len.toNat)

/-- The command samples the `now` input: ARM, BYTE and TICK do, STATUS and FEED ignore it (30_encoding.md R77). -/
def samplesNow : Instr → Bool
  | .arm _ _ => true
  | .byte _ => true
  | .tick => true
  | .status => false
  | .feed _ => false

/-- A `now` value fits the port's TS_W bits (00_scope.md R8, host duty HD7 of 70_reset_and_hazards.md R214). -/
def fitsPort (cfg : Config) (now : Nat) : Bool := decide (now < 2 ^ cfg.tsW)

/-- Field `i` of the frame in FB: `be16(FB[4 + 2i], FB[5 + 2i])` (41_frame_parser.md R141). -/
def State.fbField (s : State) (i : Nat) : Half := be16 (s.fbByte (4 + 2 * i)) (s.fbByte (5 + 2 * i))

/-- `decode_reading()` (R141), its fields in the order of 30_encoding.md R87. -/
def State.decodeReading (s : State) : Reading :=
  { pm1_0_std := s.fbField 0
    pm2_5_std := s.fbField 1
    pm10_std := s.fbField 2
    pm1_0_atm := s.fbField 3
    pm2_5_atm := s.fbField 4
    pm10_atm := s.fbField 5
    count_bin0 := s.fbField 6
    count_bin1 := s.fbField 7
    count_bin2 := s.fbField 8
    count_bin3 := s.fbField 9
    count_bin4 := s.fbField 10
    count_bin5 := s.fbField 11 }

/-- The received checksum: the two bytes below the write index, `be16(FB[P_IDX - 2], FB[P_IDX - 1])` (R139). -/
def State.receivedChecksum (s : State) : Half :=
  be16 (s.fbByte (s.pIdx.toNat - 2)) (s.fbByte (s.pIdx.toNat - 1))

end Sys2Proof.Machine
end

