-- ==== Sys2Proof/Machine/Flags.lean ====
section
/-! DEFINITION. The block's two flags, ARMED and RX_OUT (10_state.md R40), and the conditions that decide them. -/

namespace Sys2Proof.Machine

/-- The buffer is full: RX_IDX = RX_N (40_reception_engine.md R102 step 4). -/
def State.bufferFull (s : State) : Bool := decide (s.rxIdx = s.rxN)

/-- TICK's condition `now >= RX_LAST + IDLE_TIMEOUT`, on unbounded integers (R103, 60_exceptions.md R192). -/
def State.idleExpired (s : State) : Bool := decide (s.rxLast + s.cfg.idleTimeout ≤ s.now)

/-- The armed request completes at this TICK (R103): armed, non-empty and idle long enough. -/
def State.timesOut (s : State) : Bool := s.armed && decide (0 < s.rxIdx.toNat) && s.idleExpired

/-- Completion with outcome `data(len)`: RX_OUT <- 1, RX_OUTLEN <- len, ARMED <- 0 (R102, R103). -/
def State.completeWith (s : State) (len : Half) : State :=
  { s with rxOut := true, rxOutlen := len, armed := false }

/-- What a successful ARM writes: the descriptor, an empty request, the outcome `none`, and ARMED (R101). -/
def State.armWith (s : State) (base : Addr) (cap : Half) : State :=
  { s with
    rxBase := base, rxN := cap, rxIdx := 0, rxLast := s.now, rxOut := false, rxOutlen := 0, armed := true }

/-- The overflow guard's test: outside AwaitSync1 with P_IDX >= FRAME_CAP (41_frame_parser.md R132). -/
def State.overflows (s : State) : Bool :=
  decide (s.pStage ≠ .awaitSync1) && decide (s.cfg.frameCap ≤ s.pIdx.toNat)

end Sys2Proof.Machine
end

