-- ==== Sys2Proof/Machine/Parser.lean ====
section
/-! DEFINITION. The Frame Parser: FEED, one rule per stage (41_frame_parser.md). -/

namespace Sys2Proof.Machine

/-- The outcome of one FEED (00_scope.md R13). -/
inductive FeedOutcome where
  | pending
  | ok (r : Reading)
  | invalidSync
  | invalidLength
  | checksumError
  | bufferOverflow
  deriving DecidableEq, Repr

/-- The response code of an outcome (30_encoding.md R81). -/
def FeedOutcome.code : FeedOutcome → BitVec 4
  | .pending => 0x0
  | .ok _ => 0x1
  | .invalidSync => 0x2
  | .invalidLength => 0x3
  | .checksumError => 0x4
  | .bufferOverflow => 0x5

/-- `respond(code(out), 0)`, and `emit(r)` if the outcome is OK(r) (R130). -/
def State.finishFeed (s : State) (out : FeedOutcome) : State :=
  match out with
  | .ok r => (s.respond out.code 0).emit r
  | .pending | .invalidSync | .invalidLength | .checksumError | .bufferOverflow => s.respond out.code 0

/-- Stage 1, AwaitSync1 (R133). -/
def stageAwaitSync1 (b : Byte) (s : State) : State × FeedOutcome :=
  if b = 0x42 then ({ s.fbWrite 0 0x42 with pIdx := 1, pAcc := 0x0042, pStage := .awaitSync2 }, .pending)
  else (s, .pending)

/-- Stage 2, AwaitSync2 (R134). A rejected 0x42 re-enters AwaitSync1 once, as a second step and not by recursion
(R142); the re-entered step's PENDING is not reported. -/
def stageAwaitSync2 (b : Byte) (s : State) : State × FeedOutcome :=
  if b = 0x4D then ({ s.fbPush 0x4D with pAcc := addByte s.pAcc 0x4D, pStage := .readLenHi }, .pending)
  else if b = 0x42 then ((stageAwaitSync1 b s.parserReset).1, .invalidSync)
  else (s.parserReset, .invalidSync)

/-- Stage 3, ReadLenHi (R135): `P_LEN <- {b, 0x00}`. -/
def stageReadLenHi (b : Byte) (s : State) : State × FeedOutcome :=
  ({ s.fbPush b with pAcc := addByte s.pAcc b, pLen := be16 b 0x00, pStage := .readLenLo }, .pending)

/-- Steps 1 to 4 of ReadLenLo (R136): store, advance, sum, and `P_LEN <- {P_LEN[15:8], b}`. -/
def State.takeLenLo (s : State) (b : Byte) : State :=
  { s.fbPush b with pAcc := addByte s.pAcc b, pLen := be16 (s.pLen.extractLsb 15 8) b }

/-- Stage 4, ReadLenLo, with the length check and the LEN = 2 policy (R136, R143). -/
def stageReadLenLo (b : Byte) (s : State) : State × FeedOutcome :=
  let t := s.takeLenLo b
  if badLength t.cfg t.pLen then (t.parserReset, .invalidLength)
  else if t.pLen = 2 ∧ t.cfg.zeroData = .skipData then ({ t with pStage := .readChecksumHi }, .pending)
  else ({ t with pStage := .readData }, .pending)

/-- Steps 1 to 3 of ReadData (R137): the byte is summed only while its index is before the checksum field. -/
def State.takeData (s : State) (b : Byte) : State :=
  { s.fbPush b with
    pAcc := if s.pIdx.toNat < checksumOffset s.pLen then addByte s.pAcc b else s.pAcc }

/-- Step 4 of ReadData (R137): the data bytes are complete, under the LEN = 2 policy (R143). -/
def State.dataComplete (s : State) : Bool :=
  decide (s.pIdx.toNat = checksumOffset s.pLen)
    || (decide (s.cfg.zeroData = .oneByteData) && decide (checksumOffset s.pLen ≤ s.pIdx.toNat))

/-- Stage 5, ReadData (R137). -/
def stageReadData (b : Byte) (s : State) : State × FeedOutcome :=
  let t := s.takeData b
  if t.dataComplete then ({ t with pStage := .readChecksumHi }, .pending) else (t, .pending)

/-- Stage 6, ReadChecksumHi (R138). -/
def stageReadChecksumHi (b : Byte) (s : State) : State × FeedOutcome :=
  ({ s.fbPush b with pStage := .readChecksumLo }, .pending)

/-- Stage 7, ReadChecksumLo (R139): the length is tested only after a checksum match (60_exceptions.md R186). -/
def stageReadChecksumLo (b : Byte) (s : State) : State × FeedOutcome :=
  let t := s.fbPush b
  if t.receivedChecksum = t.pAcc then
    if 28 ≤ t.pLen.toNat then (t.parserReset, .ok t.decodeReading) else (t.parserReset, .invalidLength)
  else (t.parserReset, .checksumError)

/-- The stage rule that P_STAGE selects (R130, 10_state.md R21). -/
def stageStep (b : Byte) (s : State) : State × FeedOutcome :=
  match s.pStage with
  | .awaitSync1 => stageAwaitSync1 b s
  | .awaitSync2 => stageAwaitSync2 b s
  | .readLenHi => stageReadLenHi b s
  | .readLenLo => stageReadLenLo b s
  | .readData => stageReadData b s
  | .readChecksumHi => stageReadChecksumHi b s
  | .readChecksumLo => stageReadChecksumLo b s

/-- One FEED without its response (R130): the overflow guard, which drops the byte (R132), or the stage's rule. -/
def feedStep (b : Byte) (s : State) : State × FeedOutcome :=
  if s.overflows then (s.parserReset, .bufferOverflow) else stageStep b s

/-- FEED(b) of R130. -/
def execFeed (b : Byte) (s : State) : Host.Outcome State Fault Refusal :=
  .next ((feedStep b s).1.finishFeed (feedStep b s).2)

end Sys2Proof.Machine
end

