-- ==== Sys2Proof/Machine/Reception.lean ====
section
/-! DEFINITION. The Byte Reception Engine: ARM, BYTE, TICK and STATUS (40_reception_engine.md). Each answers one
response, by the codes of 30_encoding.md R81. -/

namespace Sys2Proof.Machine

/-- ARM(base, cap, now) of R101. ALREADY_ARMED is tested before the descriptor (60_exceptions.md R187). -/
def execArm (base : Addr) (cap : Half) (s : State) : Host.Outcome State Fault Refusal :=
  if s.armed then .next (s.respond 0x1 0)
  else if invalidDescriptor s.cfg base cap then .next (s.respond 0x2 0)
  else .next ((s.armWith base cap).respond 0x0 0)

/-- Steps 1 to 3 of R102: the store at the buffer address, the advance, and the byte's time as last activity. -/
def State.storeReceived (s : State) (b : Byte) : State :=
  { s.memWrite s.bufferAddr b with rxIdx := s.rxIdx + 1, rxLast := s.now }

/-- BYTE(b, now) of R102. -/
def execByte (b : Byte) (s : State) : Host.Outcome State Fault Refusal :=
  if s.armed then
    let t := s.storeReceived b
    if t.bufferFull then .next ((t.completeWith t.rxN).respond 0x0 0) else .next (t.respond 0x0 0)
  else .next (s.respond 0x0 0)

/-- TICK(now) of R103. -/
def execTick (s : State) : Host.Outcome State Fault Refusal :=
  if s.timesOut then .next ((s.completeWith s.rxIdx).respond 0x0 0) else .next (s.respond 0x0 0)

/-- STATUS of R104. -/
def execStatus (s : State) : Host.Outcome State Fault Refusal :=
  if s.rxOut then .next (s.respond 0x1 s.rxOutlen) else .next (s.respond 0x0 0)

end Sys2Proof.Machine
end

