-- ==== Sys2Proof/Machine/Dispatch.lean ====
section
/-! DEFINITION. One arm per command: each calls its meaning. -/

namespace Sys2Proof.Machine

-- The rows of spec/opcode_table.json, in its order (30_encoding.md R78).
def exec (i : Instr) (s : State) : Host.Outcome State Fault Refusal :=
  match i with
  | .arm base cap => Sys2Proof.Machine.execArm base cap s
  | .byte b => Sys2Proof.Machine.execByte b s
  | .tick => Sys2Proof.Machine.execTick s
  | .status => Sys2Proof.Machine.execStatus s
  | .feed b => Sys2Proof.Machine.execFeed b s

end Sys2Proof.Machine
end

