-- ==== Sys2Proof/Machine/Port.lean ====
section
/-! DEFINITION. The command port: what one event of the command order does (30_encoding.md R70, 20_memory.md R52). -/

namespace Sys2Proof.Machine

/-- An event begins: it leaves the order, and no output of an earlier event is driven any longer (30_encoding.md R82,
10_state.md R37; log 8). -/
def State.beginEvent (s : State) (rest : List PortEvent) : State :=
  { s with pending := rest, resp := none, reading := none, loaded := none }

/-- A command word is presented beside the `now` value that `s` holds: a legal word is performed, an illegal one is
answered (R79, R83). A sampled timestamp that does not fit the port has no model and is refused (HD7; log 4). -/
def presentWord (w : CmdWord) (s : State) : Host.Outcome State Fault Refusal :=
  match decode w with
  | .legal i => if samplesNow i && !fitsPort s.cfg s.now then .refused .timestampBeyondPort else exec i s
  | .illegal _ => .next s.illegalCommand

/-- One event (log 12). A host store into the armed buffer is refused (20_memory.md R60; log 5). -/
def performEvent (e : PortEvent) (s : State) : Host.Outcome State Fault Refusal :=
  match e with
  | .command w t => presentWord w { s with now := t }
  | .rst => .next s.applyReset
  | .hostStore a b => if s.ownsByte a then .refused .hostStoreIntoArmedBuffer else .next (s.memWrite a b)
  | .hostLoad a => .next { s with loaded := some (s.hostByte a) }
  | .drain a t => presentWord (encode (.feed (s.hostByte a))) { s with now := t }

/-- The next event of the command order. With none presented the block holds its state (60_exceptions.md R196; log 19). -/
def nextEvent (s : State) : Host.Outcome State Fault Refusal :=
  match s.pending with
  | [] => .next s
  | e :: rest => performEvent e (s.beginEvent rest)

/-- The order with a command word put first, presented with the `now` value the input holds (log 17). -/
def State.presentFirst (s : State) (w : CmdWord) : State :=
  { s with pending := .command w s.now :: s.pending }

end Sys2Proof.Machine
end

