-- ==== Sys2Proof/Machine/Step.lean ====
section
/-! DEFINITION. One step: the next event of the command order, performed whole (20_memory.md R52). -/

namespace Sys2Proof.Machine

/-- One step of the machine. The block has no program counter and fetches nothing (10_state.md R21): a step performs
the oldest event of `pending`. -/
def step (s : State) : Host.Outcome State Fault Refusal := nextEvent s

/-- `s` with the command word `w` placed where the next step takes its command: first in the order. A command is 64
bits (30_encoding.md R71) and bits above `nbits` are 0; `now` stays the input's value (log 17). -/
def State.withFetchWord (s : State) (nbits w : Nat) : State :=
  s.presentFirst (BitVec.ofNat 64 (w % 2 ^ nbits))

end Sys2Proof.Machine
end

