-- ==== Sys2Proof/Machine/Script.lean ====
section
/-! DEFINITION. Command scripts (30_encoding.md R90) and the pseudo-instructions (R91) as lists of events. STATUS and
FEED carry no `@ t`: they ignore `now`, and their events present 0 (log 3). -/

namespace Sys2Proof.Machine.Script

/-- A command presented at a time. -/
def present (i : Instr) (t : Nat) : PortEvent := .command (encode i) t

/-- `SEND b0, ..., bk @ t, dt`: one BYTE every `dt` ticks from `t` on. -/
def send : List Byte → Nat → Nat → List PortEvent
  | [], _, _ => []
  | b :: bs, t, dt => present (.byte b) t :: send bs (t + dt) dt

/-- `FEEDS b0, ..., bk`: one FEED for each byte. -/
def feeds (bs : List Byte) : List PortEvent := bs.map fun b => present (.feed b) 0

/-- `DRAIN base, n`: FEED of the host's load of each buffer byte in order, the addresses modulo 2^32. -/
def drain (base : Addr) (n : Nat) : List PortEvent :=
  (List.range n).map fun k => .drain (base + BitVec.ofNat 32 k) 0

end Sys2Proof.Machine.Script
end

