-- ==== Sys2Proof/Machine/Wire.lean ====
section
/-! DEFINITION. The wire frame the parser reads, written from 30_encoding.md R84 to R88, apart from the machine. -/

namespace Sys2Proof.Machine

/-- The two bytes of a 16-bit value as they stand on the wire, more significant first (20_memory.md R51). -/
def wireHalf (v : Half) : List Byte := [v.extractLsb 15 8, v.extractLsb 7 0]

/-- The sum of bytes, each zero-extended to 16 bits, modulo 2^16 (R86). -/
def byteSum (bs : List Byte) : Half := bs.foldl addByte 0

/-- The frame up to its checksum: two sync bytes, the length field, the data bytes (R84). -/
def frameHead (len : Half) (data : List Byte) : List Byte := [0x42, 0x4D] ++ wireHalf len ++ data

/-- LEN of a frame with these data bytes: the data and the two checksum bytes (R84). -/
def frameLen (data : List Byte) : Half := BitVec.ofNat 16 (data.length + 2)

/-- A frame with these data bytes and this checksum field (R84). -/
def frameWith (data : List Byte) (checksum : Half) : List Byte :=
  frameHead (frameLen data) data ++ wireHalf checksum

/-- The checksum S of R86 for these data bytes. -/
def frameSum (data : List Byte) : Half := byteSum (frameHead (frameLen data) data)

/-- `FRAME(d0, ..., dm)` of R91: the frame with a valid checksum. -/
def wireFrame (data : List Byte) : List Byte := frameWith data (frameSum data)

/-- Field `i` of the reading a frame carries: `be16(frame[4 + 2i], frame[5 + 2i])` (R87). -/
def wireField (frame : List Byte) (i : Nat) : Half := be16 (frame.getD (4 + 2 * i) 0) (frame.getD (5 + 2 * i) 0)

end Sys2Proof.Machine
end

