-- ==== Sys2Proof/WellFormed.lean ====
section
/-! DEFINITION. What must hold of a term beyond its type. -/

namespace Sys2Proof

/-- Every command is well-formed: each operand's type is exactly the width of its field (30_encoding.md R72 to R76),
and every value of every field is admitted. A zero base or capacity is a well-formed ARM that answers
INVALID_DESCRIPTOR (40_reception_engine.md R101). -/
def Instr.wellFormed : Instr → Bool
  | .arm _ _ => true
  | .byte _ => true
  | .tick => true
  | .status => true
  | .feed _ => true

/-- The block's parameters lie in the legal ranges of 00_scope.md R8. -/
def Config.legal (c : Config) : Bool :=
  decide (1 ≤ c.idleTimeout)
    && (decide (32 ≤ c.frameCap) && decide (c.frameCap ≤ 65539))
    && (decide (1 ≤ c.maxXfer) && decide (c.maxXfer ≤ 65535))
    && decide (16 ≤ c.tsW)

/-- TICK_MAX_INTERVAL is legal: at least 1 and below IDLE_TIMEOUT (R8, 60_exceptions.md R193). It constrains the tick
source, so it is no part of `Config.legal`: with IDLE_TIMEOUT = 1 the command rules hold and this does not. -/
def Config.tickLegal (c : Config) : Bool :=
  decide (1 ≤ c.tickMaxInterval) && decide (c.tickMaxInterval < c.idleTimeout)

end Sys2Proof
end

