-- ==== Sys2Proof/Safety.lean ====
section
/-! DEFINITION. The terms claims are stated in: what a run shows, the invariants of the registers, and the duties the
spec places on the agents. -/

namespace Sys2Proof.Machine

/-! ## What a run shows (70_reset_and_hazards.md R224) -/

/-- The outputs of one event: RESP, READING and the byte of a host load. -/
structure Output where
  resp : Option RespWord
  reading : Option Reading
  loaded : Option Byte
  deriving DecidableEq, Repr

/-- The outputs a state drives. -/
def State.output (s : State) : Output := { resp := s.resp, reading := s.reading, loaded := s.loaded }

/-- `k` steps: the outputs of each step in order, and where the run ends. -/
def runOrder : Nat → State → List Output × Host.Outcome State Fault Refusal
  | 0, s => ([], .next s)
  | k + 1, s =>
    match step s with
    | .next t => (t.output :: (runOrder k t).1, (runOrder k t).2)
    | .fault f => ([], .fault f)
    | .refused r => ([], .refused r)

/-- A whole command order performed from a state: one step for each event (R224). -/
def runScript (es : List PortEvent) (s : State) : List Output × Host.Outcome State Fault Refusal :=
  runOrder es.length { s with pending := es }

/-- Commands performed one after the other, each with its `now` value, without the port. -/
def performAll : List (Instr × Nat) → State → List Output × Host.Outcome State Fault Refusal
  | [], s => ([], .next s)
  | c :: rest, s =>
    match exec c.1 { s with now := c.2 } with
    | .next t => (t.output :: (performAll rest t).1, (performAll rest t).2)
    | .fault f => ([], .fault f)
    | .refused r => ([], .refused r)

/-- FEED of each byte in order. -/
def feedAll (bs : List Byte) (s : State) : List Output × Host.Outcome State Fault Refusal :=
  performAll (bs.map fun b => (.feed b, s.now)) s

/-- The bytes the engine stores while these commands are performed: the operand of every BYTE met with ARMED = 1. -/
def storedBytes : List (Instr × Nat) → State → List Byte
  | [], _ => []
  | c :: rest, s =>
    match exec c.1 { s with now := c.2 } with
    | .next t =>
      match c.1 with
      | .byte b => if s.armed then b :: storedBytes rest t else storedBytes rest t
      | .arm _ _ | .tick | .status | .feed _ => storedBytes rest t
    | .fault _ => []
    | .refused _ => []

/-- The bytes fed to the parser, in order. -/
def fedBytes : List (Instr × Nat) → List Byte
  | [] => []
  | c :: rest =>
    match c.1 with
    | .feed b => b :: fedBytes rest
    | .arm _ _ | .byte _ | .tick | .status => fedBytes rest

/-- The outputs of the FEEDs alone, in order, while these commands are performed. -/
def feedOutputs : List (Instr × Nat) → State → List (Option RespWord × Option Reading)
  | [], _ => []
  | c :: rest, s =>
    match exec c.1 { s with now := c.2 } with
    | .next t =>
      match c.1 with
      | .feed _ => (t.resp, t.reading) :: feedOutputs rest t
      | .arm _ _ | .byte _ | .tick | .status => feedOutputs rest t
    | .fault _ => []
    | .refused _ => []

/-- The command is no ARM. -/
def notArm : Instr → Bool
  | .arm _ _ => false
  | .byte _ => true
  | .tick => true
  | .status => true
  | .feed _ => true

/-- The outputs of a FEED with an outcome other than OK, or of OK with its reading (30_encoding.md R81, R82). -/
def feedOutput (s : State) (resp : RespWord) (reading : Option Reading) : Output :=
  { resp := some resp, reading := reading, loaded := s.loaded }

/-! ## Invariants of the registers -/

/-- The sum of the first `n` frame-buffer bytes, modulo 2^16 (41_frame_parser.md R140). -/
def State.fbSum (s : State) : Nat → Half
  | 0 => 0
  | n + 1 => addByte (s.fbSum n) (s.fbByte n)

/-- Every byte below the write index has been written (10_state.md R34). -/
def State.FbHolds (s : State) : Prop := ∀ i, i < s.pIdx.toNat → (s.fb.byteAt i).isSome

/-- LEN has passed the length check (R36, 41_frame_parser.md R136). -/
def State.LenAccepted (s : State) : Prop := 2 ≤ s.pLen.toNat ∧ 4 + s.pLen.toNat ≤ s.cfg.frameCap

/-- The frame buffer holds the sync bytes and the length field that P_LEN was read from (R34, 20_memory.md R51). -/
def State.FbHeader (s : State) : Prop :=
  s.fbByte 0 = 0x42 ∧ s.fbByte 1 = 0x4D ∧ s.pLen = be16 (s.fbByte 2) (s.fbByte 3)

/-- P_IDX on entry to ReadChecksumHi: the checksum's offset, or one more for a LEN = 2 frame under ONE_BYTE_DATA
(R36, 41_frame_parser.md R143). -/
def State.ChecksumHiAt (s : State) (i : Nat) : Prop :=
  (i = checksumOffset s.pLen ∧ (s.cfg.zeroData = .skipData ∨ 3 ≤ s.pLen.toNat))
    ∨ (i = 5 ∧ s.pLen = 2 ∧ s.cfg.zeroData = .oneByteData)

/-- The parser's registers by stage: the table of 10_state.md R36, with its two LEN = 2 cases of stage 5. -/
def State.ParserInv (s : State) : Prop :=
  match s.pStage with
  | .awaitSync1 => s.pIdx = 0 ∧ s.pLen = 0 ∧ s.pAcc = 0
  | .awaitSync2 => s.pIdx = 1 ∧ s.pAcc = 0x0042 ∧ s.fbByte 0 = 0x42
  | .readLenHi => s.pIdx = 2 ∧ s.pAcc = 0x008F ∧ s.fbByte 0 = 0x42 ∧ s.fbByte 1 = 0x4D
  | .readLenLo =>
    s.pIdx = 3 ∧ s.pAcc = s.fbSum 3 ∧ s.fbByte 0 = 0x42 ∧ s.fbByte 1 = 0x4D ∧ s.pLen = be16 (s.fbByte 2) 0x00
  | .readData =>
    s.LenAccepted ∧ s.FbHeader ∧ 4 ≤ s.pIdx.toNat ∧ s.pIdx.toNat ≤ s.cfg.frameCap
      ∧ s.pAcc = s.fbSum (min s.pIdx.toNat (checksumOffset s.pLen))
      ∧ (s.pIdx.toNat < checksumOffset s.pLen
        ∨ (s.pLen = 2 ∧ s.cfg.zeroData = .oneByteData ∧ s.pIdx = 4)
        ∨ (s.pLen = 2 ∧ s.cfg.zeroData = .stallInData))
  | .readChecksumHi =>
    s.LenAccepted ∧ s.FbHeader ∧ s.pAcc = s.fbSum (checksumOffset s.pLen) ∧ s.ChecksumHiAt s.pIdx.toNat
  | .readChecksumLo =>
    s.LenAccepted ∧ s.FbHeader ∧ s.pAcc = s.fbSum (checksumOffset s.pLen)
      ∧ 1 ≤ s.pIdx.toNat ∧ s.ChecksumHiAt (s.pIdx.toNat - 1)

/-- The engine's registers: (a) and (b) of 10_state.md R30, the legal values of R42, and that the reported length is
the number of bytes received (40_reception_engine.md R105). -/
def State.EngineInv (s : State) : Prop :=
  (s.armed = true → s.rxBase ≠ 0 ∧ 1 ≤ s.rxN.toNat ∧ s.rxN.toNat ≤ s.cfg.maxXfer
      ∧ s.rxIdx.toNat < s.rxN.toNat ∧ s.rxOut = false)
    ∧ (s.rxOut = true → s.armed = false ∧ 1 ≤ s.rxOutlen.toNat ∧ s.rxOutlen.toNat ≤ s.rxN.toNat
      ∧ s.rxOutlen = s.rxIdx)
    ∧ s.rxIdx.toNat ≤ s.rxN.toNat
    ∧ s.rxOutlen.toNat ≤ s.rxN.toNat

/-- The invariant of the whole machine. It holds of reset under every legal configuration, and every step keeps it. -/
structure State.Inv (s : State) : Prop where
  /-- The parameters are legal (00_scope.md R8). -/
  cfg : s.cfg.legal = true
  /-- Host memory is in canonical form. -/
  mem : s.mem.wf hostMemorySize = true
  /-- The frame buffer is in canonical form and holds offsets below FRAME_CAP only (10_state.md R34). -/
  fb : s.fb.wf s.cfg.frameCap = true
  /-- P_IDX never exceeds FRAME_CAP (R32). -/
  idx : s.pIdx.toNat ≤ s.cfg.frameCap
  fbHolds : s.FbHolds
  engine : s.EngineInv
  parser : s.ParserInv

/-! ## The agents' duties (70_reset_and_hazards.md R214)

The machine performs any command order: a duty is a premise of a claim about the agents, not of a rule of the block. -/

/-- The agents of 00_scope.md R7. -/
inductive Agent where
  | byteSource
  | tickSource
  | controlLoop
  | resetInput
  deriving DecidableEq, Repr

/-- Which agent's command it is (R7, HD8). The block does not check it (60_exceptions.md R191). -/
def ownerOf : Instr → Agent
  | .arm _ _ => .controlLoop
  | .byte _ => .byteSource
  | .tick => .tickSource
  | .status => .controlLoop
  | .feed _ => .controlLoop

/-- An event and the agent that presents it. The machine sees the event alone. -/
abbrev Presented := Agent × PortEvent

/-- HD8: each agent presents only its own events. An illegal word is no agent's. -/
def keepsRole (p : Presented) : Bool :=
  match p.2 with
  | .command w _ =>
    match decode w with
    | .legal i => decide (ownerOf i = p.1)
    | .illegal _ => false
  | .rst => decide (p.1 = .resetInput)
  | .hostStore _ _ => decide (p.1 = .controlLoop)
  | .hostLoad _ => decide (p.1 = .controlLoop)
  | .drain _ _ => decide (p.1 = .controlLoop)

/-- The events one agent presents, in its order. -/
def eventsOf (a : Agent) (ps : List Presented) : List PortEvent :=
  ps.filterMap fun p => if p.1 = a then some p.2 else none

/-- A schedule interleaves the agents' own orders (20_memory.md R54, 60_exceptions.md R188): each agent's events stand
in the order it issued them. Every such schedule is admitted. -/
def Interleaves (issued : List (Agent × List PortEvent)) (ps : List Presented) : Prop :=
  ∀ a, eventsOf a ps = ((issued.filter fun q => decide (q.1 = a)).map Prod.snd).flatten

/-- The `now` value an event samples, if it samples one (30_encoding.md R77). -/
def sampledNow : PortEvent → Option Nat
  | .command w t =>
    match decode w with
    | .legal i => if samplesNow i then some t else none
    | .illegal _ => none
  | .rst => none
  | .hostStore _ _ => none
  | .hostLoad _ => none
  | .drain _ _ => none

/-- The `now` value of a TICK. -/
def tickNow : PortEvent → Option Nat
  | .command w t => if decode w = .legal .tick then some t else none
  | .rst => none
  | .hostStore _ _ => none
  | .hostLoad _ => none
  | .drain _ _ => none

/-- HD6: the sampled timestamps do not decrease along the command order. -/
def KeepsTime (es : List PortEvent) : Prop := (es.filterMap sampledNow).Pairwise (· ≤ ·)

/-- HD7: every sampled timestamp fits the port. -/
def FitsPort (cfg : Config) (es : List PortEvent) : Prop := ∀ t ∈ es.filterMap sampledNow, fitsPort cfg t = true

/-- HD2: consecutive TICKs do not go back in time and come at most TICK_MAX_INTERVAL apart, which is legal. -/
def TicksOnTime (cfg : Config) (es : List PortEvent) : Prop :=
  cfg.tickLegal = true ∧ (es.filterMap tickNow).IsChain fun a b => a ≤ b ∧ b ≤ a + cfg.tickMaxInterval

end Sys2Proof.Machine
end

