-- ==== Sys2Proof/Certificates/Slice0/Obligations.lean ====
section
/-! DEFINITION. What is claimed of the machine, one statement a definition. A rule R<n> is one of spec/; a rule that the
spec itself marks as an inference ("derived") is named as such, and so is a choice of the model with its log entry. -/

open Sys2Proof Sys2Proof.Machine
open Host (Outcome)

/-! ## Encoding -/

/-- Decoding the word of a command gives the command back, with every operand at every value (30_encoding.md,
command words). -/
def Obligations.DecodeOfEncodeIsTheCommand : Prop :=
  ∀ i : Instr, decode (encode i) = .legal i

/-- A word that decodes to a command is that command's only encoding: decoding drops no bit. -/
def Obligations.EncodeOfDecodedIsTheWord : Prop :=
  ∀ (w : CmdWord) (i : Instr), decode w = .legal i → encode i = w

/-- R83: every word is exactly one of ARM, BYTE, TICK, STATUS, FEED (each with the operands at their bit positions, and
only with the required zeros) or ILLEGAL; ILLEGAL is exactly what is left. The masks are those of the opcode table. -/
def Obligations.DecodeIsTotalAndExact : Prop :=
  ∀ w : CmdWord,
    (∀ base cap, decode w = .legal (.arm base cap) ↔
      w &&& 0xFFFF000000000000#64 = 0x1000000000000000#64 ∧ cap = w.extractLsb' 32 16 ∧ base = w.extractLsb' 0 32)
    ∧ (∀ b, decode w = .legal (.byte b) ↔
      w &&& 0xFFFFFFFFFFFFFF00#64 = 0x2000000000000000#64 ∧ b = w.extractLsb' 0 8)
    ∧ (decode w = .legal .tick ↔ w = 0x3000000000000000#64)
    ∧ (decode w = .legal .status ↔ w = 0x4000000000000000#64)
    ∧ (∀ b, decode w = .legal (.feed b) ↔
      w &&& 0xFFFFFFFFFFFFFF00#64 = 0x5000000000000000#64 ∧ b = w.extractLsb' 0 8)
    ∧ ((∃ why, decode w = .illegal why) ↔
      w &&& 0xFFFF000000000000#64 ≠ 0x1000000000000000#64
        ∧ w &&& 0xFFFFFFFFFFFFFF00#64 ≠ 0x2000000000000000#64
        ∧ w ≠ 0x3000000000000000#64
        ∧ w ≠ 0x4000000000000000#64
        ∧ w &&& 0xFFFFFFFFFFFFFF00#64 ≠ 0x5000000000000000#64)

/-- Words written out bit by bit from the formats of R71 to R76: one of each command, and four illegal ones. -/
def Obligations.WordsWrittenOutDecode : Prop :=
  decode 0x1000004000001000#64 = .legal (.arm 0x1000#32 64#16)
    ∧ decode 0x20000000000000AB#64 = .legal (.byte 0xAB#8)
    ∧ decode 0x3000000000000000#64 = .legal .tick
    ∧ decode 0x4000000000000000#64 = .legal .status
    ∧ decode 0x5000000000000042#64 = .legal (.feed 0x42#8)
    ∧ decode 0x1001004000001000#64 = .illegal .reservedBits
    ∧ decode 0x5000000100000042#64 = .illegal .reservedBits
    ∧ decode 0x0000000000000000#64 = .illegal .reservedOp
    ∧ decode 0x6000000000000000#64 = .illegal .reservedOp

/-! ## The port and the step -/

/-- A step performs the presented command: with a legal word first in the order, and a timestamp that fits the port
where the command samples it, the step is `exec` of the decoded command, at the state whose `now` is the presented one,
whose order has moved on and which drives no earlier output. The order, the fields `now` and `loaded` and the clearing
of outputs are the model's (log 2, 3, 8). -/
def Obligations.StepPerformsThePresentedCommand : Prop :=
  ∀ (s : State) (w : CmdWord) (t : Nat) (rest : List PortEvent) (i : Instr),
    s.pending = .command w t :: rest → decode w = .legal i → (samplesNow i = true → t < 2 ^ s.cfg.tsW) →
    step s = exec i { s with pending := rest, now := t, resp := none, reading := none, loaded := none }

/-- R79: a word of none of the table's five patterns answers code 0xF, value 0, and changes no register, no FB byte and
no host-memory byte. -/
def Obligations.IllegalWordAnswersAndChangesNothing : Prop :=
  ∀ (s : State) (w : CmdWord) (t : Nat) (rest : List PortEvent),
    s.pending = .command w t :: rest →
    w &&& 0xFFFF000000000000#64 ≠ 0x1000000000000000#64 →
    w &&& 0xFFFFFFFFFFFFFF00#64 ≠ 0x2000000000000000#64 →
    w ≠ 0x3000000000000000#64 → w ≠ 0x4000000000000000#64 →
    w &&& 0xFFFFFFFFFFFFFF00#64 ≠ 0x5000000000000000#64 →
    ∃ u, step s = .next u
      ∧ u.resp = some 0x0000000F#32 ∧ u.reading = none
      ∧ u.armed = s.armed ∧ u.rxBase = s.rxBase ∧ u.rxN = s.rxN ∧ u.rxIdx = s.rxIdx ∧ u.rxLast = s.rxLast
      ∧ u.rxOut = s.rxOut ∧ u.rxOutlen = s.rxOutlen
      ∧ u.pStage = s.pStage ∧ u.pIdx = s.pIdx ∧ u.pLen = s.pLen ∧ u.pAcc = s.pAcc ∧ u.cfg = s.cfg
      ∧ (∀ j, u.fbByte j = s.fbByte j) ∧ ∀ a, u.hostByte a = s.hostByte a

/-- A command order of legal commands, each sampled timestamp within the port, runs command by command: the outputs and
the end of the run are those of performing the commands directly. (Model's order and port: log 2, 4.) -/
def Obligations.ScriptRunsCommandByCommand : Prop :=
  ∀ (cs : List (Instr × Nat)) (s : State),
    s.pending = [] → s.loaded = none →
    (∀ c ∈ cs, samplesNow c.1 = true → c.2 < 2 ^ s.cfg.tsW) →
    runScript (cs.map fun c => Script.present c.1 c.2) s = performAll cs s

/-- A step is refused only for a host store into the armed buffer, or a sampled timestamp beyond the port; and it is
refused exactly then. These are the model's refusals of inputs the spec gives no meaning (log 4, 5). -/
def Obligations.StepRefusesExactlyTheNamedInputs : Prop :=
  ∀ (s : State) (r : Refusal), step s = .refused r ↔
    (r = .hostStoreIntoArmedBuffer ∧ ∃ a b rest, s.pending = .hostStore a b :: rest ∧ s.armed = true
      ∧ (a - s.rxBase).toNat < s.rxN.toNat)
    ∨ (r = .timestampBeyondPort ∧ ∃ w t rest i, s.pending = .command w t :: rest ∧ decode w = .legal i
      ∧ samplesNow i = true ∧ 2 ^ s.cfg.tsW ≤ t)

/-- Every command ends with a next state, from every state: the block has no trap and no condition that stops it
(60_exceptions.md, errors instead of traps; 70_reset_and_hazards.md, the end of a run). -/
def Obligations.EveryCommandCompletes : Prop :=
  ∀ (i : Instr) (s : State), ∃ t, exec i s = .next t

/-- R80: the response word is {value, 12 zero bits, code}, and every command, illegal ones included, returns exactly one
response. -/
def Obligations.EveryCommandReturnsOneResponse : Prop :=
  (∀ (code : BitVec 4) (value : Half),
    (respWord code value).extractLsb' 16 16 = value ∧ (respWord code value).extractLsb' 4 12 = 0
      ∧ (respWord code value).extractLsb' 0 4 = code)
    ∧ (∀ (i : Instr) (s : State), ∃ t code value, exec i s = .next t ∧ t.resp = some (respWord code value))
    ∧ (∀ (s : State) (w : CmdWord) (t : Nat) (rest : List PortEvent) (why : IllegalWord),
      s.pending = .command w t :: rest → decode w = .illegal why →
      ∃ u code value, step s = .next u ∧ u.resp = some (respWord code value))

/-- R81: the codes and values each command can return, an illegal word included; no command returns another. That
DATA's length is at least 1 needs the engine's invariant. -/
def Obligations.CommandsReturnOnlyTheirCodes : Prop :=
  (∀ (s t : State) (i : Instr), s.EngineInv → exec i s = .next t →
    match i with
    | .arm _ _ => t.resp = some (respWord 0x0 0) ∨ t.resp = some (respWord 0x1 0) ∨ t.resp = some (respWord 0x2 0)
    | .byte _ => t.resp = some (respWord 0x0 0)
    | .tick => t.resp = some (respWord 0x0 0)
    | .status => t.resp = some (respWord 0x0 0)
        ∨ ∃ n : Half, 1 ≤ n.toNat ∧ n = s.rxOutlen ∧ t.resp = some (respWord 0x1 n)
    | .feed _ => ∃ code : BitVec 4, code.toNat ≤ 5 ∧ t.resp = some (respWord code 0))
    ∧ (∀ (s : State) (w : CmdWord) (t : Nat) (rest : List PortEvent) (why : IllegalWord),
      s.pending = .command w t :: rest → decode w = .illegal why →
      ∃ u, step s = .next u ∧ u.resp = some (respWord 0xF 0))

/-- R82: field i of READING stands at bits 191-16i down to 176-16i, and READING carries a value exactly for a FEED whose
code is OK: no other command, and no illegal word, drives it. -/
def Obligations.ReadingStandsOnlyWithOk : Prop :=
  (∀ (r : Reading) (i : Fin 12), r.pack.extractLsb' (176 - 16 * i.val) 16 = r.field i)
    ∧ (∀ (i : Instr) (s t : State), exec i s = .next t →
      (t.reading.isSome = true ↔ (∃ b, i = .feed b) ∧ t.resp = some 0x00000001#32))
    ∧ (∀ (s : State) (w : CmdWord) (t : Nat) (rest : List PortEvent) (why : IllegalWord),
      s.pending = .command w t :: rest → decode w = .illegal why → ∃ u, step s = .next u ∧ u.reading = none)

/-- FEED and STATUS ignore `now` (30_encoding.md R77, command words): at another `now` they do the same, and ARM, BYTE
and TICK are the commands that sample it. -/
def Obligations.StatusAndFeedIgnoreNow : Prop :=
  ∀ (s t : State) (n : Nat) (i : Instr), samplesNow i = false → exec i s = .next t →
    exec i { s with now := n } = .next { t with now := n }

/-! ## Reset -/

/-- The reset state under any parameters: ARMED, RX_OUT, P_STAGE and every other register at the value of the table of
70_reset_and_hazards.md; no response, no reading. The reference parameters of `State.reset` are the model's (log 1). -/
def Obligations.ResetStateHoldsTheResetValues : Prop :=
  State.reset = State.resetWith Config.reference
    ∧ ∀ cfg : Config,
      (State.resetWith cfg).cfg = cfg ∧ (State.resetWith cfg).armed = false ∧ (State.resetWith cfg).rxBase = 0
      ∧ (State.resetWith cfg).rxN = 0 ∧ (State.resetWith cfg).rxIdx = 0 ∧ (State.resetWith cfg).rxLast = 0
      ∧ (State.resetWith cfg).rxOut = false ∧ (State.resetWith cfg).rxOutlen = 0
      ∧ (State.resetWith cfg).pStage = .awaitSync1 ∧ (State.resetWith cfg).pIdx = 0
      ∧ (State.resetWith cfg).pLen = 0 ∧ (State.resetWith cfg).pAcc = 0
      ∧ (State.resetWith cfg).resp = none ∧ (State.resetWith cfg).reading = none

/-- R210: the reset input, in any state and between two commands, puts every register into its reset value, returns no
response and leaves host memory unchanged, every byte of it. FB is unspecified afterwards, so nothing is said of it. -/
def Obligations.ResetInputRestoresEveryRegister : Prop :=
  ∀ (s : State) (rest : List PortEvent), s.pending = .rst :: rest →
    ∃ t, step s = .next t
      ∧ t.armed = false ∧ t.rxBase = 0 ∧ t.rxN = 0 ∧ t.rxIdx = 0 ∧ t.rxLast = 0 ∧ t.rxOut = false ∧ t.rxOutlen = 0
      ∧ t.pStage = .awaitSync1 ∧ t.pIdx = 0 ∧ t.pLen = 0 ∧ t.pAcc = 0
      ∧ t.resp = none ∧ t.reading = none ∧ t.cfg = s.cfg
      ∧ t.mem = s.mem ∧ ∀ a, t.hostByte a = s.hostByte a

/-- Configuration is not state (10_state.md R39): no step changes a parameter. -/
def Obligations.NoStepChangesTheConfiguration : Prop :=
  ∀ s t : State, step s = .next t → t.cfg = s.cfg

/-! ## The reception engine -/

/-- R101: ARM. ALREADY_ARMED first, then INVALID_DESCRIPTOR, both changing no register; otherwise the descriptor is
taken, the request is empty, and the outcome is `none`. -/
def Obligations.ArmFollowsItsRule : Prop :=
  ∀ (base : Addr) (cap : Half) (s : State), exec (.arm base cap) s = .next (
    if s.armed = true then { s with resp := some 0x00000001#32, reading := none }
    else if base = 0 ∨ cap = 0 ∨ cap.toNat > s.cfg.maxXfer then { s with resp := some 0x00000002#32, reading := none }
    else { s with
      rxBase := base, rxN := cap, rxIdx := 0, rxLast := s.now, rxOut := false, rxOutlen := 0, armed := true
      resp := some 0x00000000#32, reading := none })

/-- R102: BYTE. Not armed, the byte is discarded. Armed, it is stored at the buffer address, the index and the last
activity move on, and the byte that fills the buffer completes the request. -/
def Obligations.ByteFollowsItsRule : Prop :=
  ∀ (b : Byte) (s : State), exec (.byte b) s = .next (
    if s.armed = false then { s with resp := some 0x00000000#32, reading := none }
    else if s.rxIdx + 1 = s.rxN then { s with
      mem := s.mem.setByte s.bufferAddr.toNat b, rxIdx := s.rxIdx + 1, rxLast := s.now
      rxOut := true, rxOutlen := s.rxN, armed := false, resp := some 0x00000000#32, reading := none }
    else { s with
      mem := s.mem.setByte s.bufferAddr.toNat b, rxIdx := s.rxIdx + 1, rxLast := s.now
      resp := some 0x00000000#32, reading := none })

/-- R55: the byte goes to (RX_BASE + RX_IDX) mod 2^32, with RX_IDX before the increment; a host read of that address
afterwards gives the byte, and every other address reads as before. -/
def Obligations.ByteStoresAtTheBufferAddress : Prop :=
  ∀ (b : Byte) (s t : State), s.armed = true → exec (.byte b) s = .next t →
    s.bufferAddr.toNat = (s.rxBase.toNat + s.rxIdx.toNat) % 2 ^ 32
      ∧ t.hostByte s.bufferAddr = b ∧ ∀ a, a ≠ s.bufferAddr → t.hostByte a = s.hostByte a

/-- R103: TICK completes an armed, non-empty request whose last activity is at least IDLE_TIMEOUT old, the comparison on
unbounded integers; otherwise it changes nothing. -/
def Obligations.TickFollowsItsRule : Prop :=
  ∀ s : State, exec .tick s = .next (
    if s.armed = true ∧ 0 < s.rxIdx.toNat ∧ s.now ≥ s.rxLast + s.cfg.idleTimeout then { s with
      rxOut := true, rxOutlen := s.rxIdx, armed := false, resp := some 0x00000000#32, reading := none }
    else { s with resp := some 0x00000000#32, reading := none })

/-- R104: STATUS reports DATA(RX_OUTLEN) or NONE and writes nothing. The outcome it reports persists through every
command but an ARM: under the engine's invariant RX_OUT = 1 and RX_OUTLEN stay. -/
def Obligations.StatusFollowsItsRule : Prop :=
  (∀ s : State, exec .status s = .next (
    if s.rxOut = true then { s with resp := some (s.rxOutlen ++ 0x0001#16), reading := none }
    else { s with resp := some 0x00000000#32, reading := none }))
    ∧ (∀ (i : Instr) (s t : State), s.EngineInv → notArm i = true → s.rxOut = true → exec i s = .next t →
      t.rxOut = true ∧ t.rxOutlen = s.rxOutlen)

/-- The writer discipline, with the frame of the five commands. R108: only BYTE stores into host memory, only to the
buffer address and only while armed, and only BYTE increments RX_IDX; TICK writes RX_OUT, RX_OUTLEN and ARMED alone;
STATUS writes nothing; ARM writes every engine register, but only when ARMED = 0, and an ARM that is refused writes none
(40_reception_engine.md R101). 10_state.md R39 and R42: FEED writes no engine register and no host byte, the engine's
commands touch neither the parser nor FB, and no command the parameters. That no command writes `now`, `loaded` and
`pending` is about the model's own fields: the `now` input (log 3), the output of a host load (log 8) and the command
order (log 2). -/
def Obligations.CommandsKeepTheWriterDiscipline : Prop :=
  ∀ (s t : State) (i : Instr), exec i s = .next t →
    ((∀ b, i ≠ .feed b) → t.pStage = s.pStage ∧ t.pIdx = s.pIdx ∧ t.pLen = s.pLen ∧ t.pAcc = s.pAcc
      ∧ (∀ j, t.fbByte j = s.fbByte j))
    ∧ t.cfg = s.cfg ∧ t.now = s.now ∧ t.loaded = s.loaded ∧ t.pending = s.pending
    ∧ (match i with
      | .arm base cap =>
        (∀ a, t.hostByte a = s.hostByte a)
          ∧ (s.armed = true → t.armed = s.armed ∧ t.rxBase = s.rxBase ∧ t.rxN = s.rxN ∧ t.rxIdx = s.rxIdx
            ∧ t.rxLast = s.rxLast ∧ t.rxOut = s.rxOut ∧ t.rxOutlen = s.rxOutlen)
          ∧ (s.armed = false → t.armed = true → t.rxBase = base ∧ t.rxN = cap ∧ t.rxIdx = 0 ∧ t.rxLast = s.now
            ∧ t.rxOut = false ∧ t.rxOutlen = 0)
          ∧ (s.armed = false → t.armed = false → t.rxBase = s.rxBase ∧ t.rxN = s.rxN ∧ t.rxIdx = s.rxIdx
            ∧ t.rxLast = s.rxLast ∧ t.rxOut = s.rxOut ∧ t.rxOutlen = s.rxOutlen)
      | .byte _ =>
        (∀ a, (s.armed = true → a ≠ s.bufferAddr) → t.hostByte a = s.hostByte a)
          ∧ t.rxBase = s.rxBase ∧ t.rxN = s.rxN
          ∧ (s.armed = true → t.rxIdx = s.rxIdx + 1)
          ∧ (s.armed = false → t.rxIdx = s.rxIdx ∧ t.rxLast = s.rxLast ∧ t.armed = s.armed ∧ t.rxOut = s.rxOut
            ∧ t.rxOutlen = s.rxOutlen)
      | .tick =>
        (∀ a, t.hostByte a = s.hostByte a)
          ∧ t.rxBase = s.rxBase ∧ t.rxN = s.rxN ∧ t.rxIdx = s.rxIdx ∧ t.rxLast = s.rxLast
      | .status =>
        (∀ a, t.hostByte a = s.hostByte a)
          ∧ t.armed = s.armed ∧ t.rxBase = s.rxBase ∧ t.rxN = s.rxN ∧ t.rxIdx = s.rxIdx ∧ t.rxLast = s.rxLast
          ∧ t.rxOut = s.rxOut ∧ t.rxOutlen = s.rxOutlen
      | .feed _ =>
        (∀ a, t.hostByte a = s.hostByte a)
          ∧ t.armed = s.armed ∧ t.rxBase = s.rxBase ∧ t.rxN = s.rxN ∧ t.rxIdx = s.rxIdx ∧ t.rxLast = s.rxLast
          ∧ t.rxOut = s.rxOut ∧ t.rxOutlen = s.rxOutlen)

/-- Re-arm safety (an inference the spec draws, 40_reception_engine.md laws of the engine): an ARM while ARMED = 1
answers ALREADY_ARMED, leaves every register as it was, and every later command does exactly what it would have done. -/
def Obligations.ReArmLeavesTheRequestAsItWas : Prop :=
  ∀ (base : Addr) (cap : Half) (s : State), s.armed = true →
    ∃ t, exec (.arm base cap) s = .next t ∧ t.resp = some (respWord 0x1 0)
      ∧ t.armed = true ∧ t.rxBase = s.rxBase ∧ t.rxN = s.rxN ∧ t.rxIdx = s.rxIdx ∧ t.rxLast = s.rxLast
      ∧ t.rxOut = s.rxOut ∧ t.rxOutlen = s.rxOutlen
      ∧ ∀ (i : Instr) (n : Nat), exec i { t with now := n } = exec i { s with now := n }

/-- A successful ARM discards the outcome (an inference the spec draws, 70_reset_and_hazards.md software-visible
hazards): the STATUS after it returns NONE, whatever had completed before. -/
def Obligations.ReArmDiscardsTheOutcome : Prop :=
  ∀ (base : Addr) (cap : Half) (s : State), s.armed = false → base ≠ 0 → cap ≠ 0 → cap.toNat ≤ s.cfg.maxXfer →
    ∃ t u, exec (.arm base cap) s = .next t ∧ exec .status t = .next u ∧ u.resp = some (respWord 0x0 0)

/-- Completion is exactly once (an inference the spec draws, 40_reception_engine.md laws of the engine). From a freshly
armed request, while BYTE, TICK, STATUS and FEED come in any order and at any times: the bytes stored stand at RX_BASE
and up, in arrival order and modulo 2^32; no other host byte changes; the request is either still armed or has completed
once with the number of bytes stored, and a completed one stays as it is. -/
def Obligations.RequestCompletesOnceWithTheBytesStored : Prop :=
  ∀ (cs : List (Instr × Nat)) (s : State),
    s.EngineInv → s.armed = true → s.rxIdx = 0 → (∀ c ∈ cs, notArm c.1 = true) →
    ∃ t, (performAll cs s).2 = .next t
      ∧ t.rxIdx.toNat = (storedBytes cs s).length
      ∧ (∀ k, k < (storedBytes cs s).length →
        t.hostByte (s.rxBase + BitVec.ofNat 32 k) = (storedBytes cs s).getD k 0)
      ∧ (∀ a : Addr, (storedBytes cs s).length ≤ (a - s.rxBase).toNat → t.hostByte a = s.hostByte a)
      ∧ (t.armed = true ∧ t.rxOut = false
        ∨ t.armed = false ∧ t.rxOut = true ∧ t.rxOutlen.toNat = (storedBytes cs s).length)

/-- The drain window (an inference the spec draws, 70_reset_and_hazards.md software-visible hazards): with ARMED = 0 and
no ARM, every BYTE is discarded and no TICK completes anything. The engine's registers and every host byte stay, for any
number of commands, so the outcome stays readable and no completion happens twice. -/
def Obligations.DrainWindowDiscardsEveryByte : Prop :=
  ∀ (cs : List (Instr × Nat)) (s : State), s.armed = false → (∀ c ∈ cs, notArm c.1 = true) →
    storedBytes cs s = []
      ∧ ∃ t, (performAll cs s).2 = .next t
        ∧ t.armed = false ∧ t.rxBase = s.rxBase ∧ t.rxN = s.rxN ∧ t.rxIdx = s.rxIdx ∧ t.rxLast = s.rxLast
        ∧ t.rxOut = s.rxOut ∧ t.rxOutlen = s.rxOutlen ∧ ∀ a, t.hostByte a = s.hostByte a

/-- Idle completion (an inference the spec draws, 40_reception_engine.md laws of the engine): a partly filled request
with last activity t stays armed through every TICK before t + IDLE_TIMEOUT, and the first TICK not before it completes
it with DATA(n). If the TICKs keep duty HD2 and one came before the deadline, that TICK comes at most TICK_MAX_INTERVAL
after the deadline. -/
def Obligations.IdleRequestCompletesAtTheFirstTickAfterTheDeadline : Prop :=
  ∀ (s : State) (early : List Nat) (m : Nat),
    s.armed = true → 1 ≤ s.rxIdx.toNat → s.rxOut = false →
    (∀ t ∈ early, t < s.rxLast + s.cfg.idleTimeout) → s.rxLast + s.cfg.idleTimeout ≤ m →
    (∃ u, (performAll (early.map fun t => (.tick, t)) s).2 = .next u
      ∧ u.armed = true ∧ u.rxOut = false ∧ u.rxIdx = s.rxIdx)
    ∧ (∃ u, (performAll ((early ++ [m]).map fun t => (.tick, t)) s).2 = .next u
      ∧ u.armed = false ∧ u.rxOut = true ∧ u.rxOutlen = s.rxIdx
      ∧ ∃ v, exec .status u = .next v ∧ v.resp = some (respWord 0x1 s.rxIdx))
    ∧ (early ≠ [] →
      TicksOnTime s.cfg ((early ++ [m]).map fun t => Script.present .tick t) →
      m ≤ s.rxLast + s.cfg.idleTimeout + s.cfg.tickMaxInterval)

/-- An empty request never times out (an inference the spec draws at R103): however many TICKs come, at whatever times. -/
def Obligations.EmptyRequestNeverTimesOut : Prop :=
  ∀ (ts : List Nat) (s : State), s.armed = true → s.rxIdx = 0 →
    ∃ t, (performAll (ts.map fun n => (.tick, n)) s).2 = .next t
      ∧ t.armed = true ∧ t.rxIdx = 0 ∧ t.rxOut = s.rxOut ∧ t.rxOutlen = s.rxOutlen

/-- A stale TICK completes nothing (70_reset_and_hazards.md, stale timestamps): after a stored BYTE, a TICK whose `now`
is earlier changes no register. -/
def Obligations.StaleTickCompletesNothing : Prop :=
  ∀ (s t : State) (b : Byte) (n : Nat), s.armed = true → exec (.byte b) s = .next t → n < s.now →
    exec .tick { t with now := n } = .next { t with now := n, resp := some (respWord 0x0 0), reading := none }

/-- A byte and an expired tick at the same moment (an inference the spec draws, 60_exceptions.md precedence). Tick first:
the request completes without the byte, which is discarded. Byte first: the byte is stored and is the last activity; if
it does not fill the buffer, the tick completes the request only if it is IDLE_TIMEOUT after the byte. In neither order
do both complete it. -/
def Obligations.ByteAndTickCommuteOnlyAsTheRulesSay : Prop :=
  ∀ (s : State) (b : Byte) (tb tt : Nat),
    s.EngineInv → s.armed = true → 1 ≤ s.rxIdx.toNat → s.rxLast + s.cfg.idleTimeout ≤ tt →
    (∃ t, (performAll [(.tick, tt), (.byte b, tb)] s).2 = .next t
      ∧ t.armed = false ∧ t.rxOut = true ∧ t.rxOutlen = s.rxIdx ∧ t.rxIdx = s.rxIdx
      ∧ ∀ a, t.hostByte a = s.hostByte a)
    ∧ (∃ t, (performAll [(.byte b, tb), (.tick, tt)] s).2 = .next t
      ∧ t.rxIdx = s.rxIdx + 1 ∧ t.hostByte s.bufferAddr = b ∧ t.rxLast = tb
      ∧ (s.rxIdx + 1 = s.rxN → t.armed = false ∧ t.rxOut = true ∧ t.rxOutlen = s.rxN)
      ∧ (s.rxIdx + 1 ≠ s.rxN → tb + s.cfg.idleTimeout ≤ tt →
        t.armed = false ∧ t.rxOut = true ∧ t.rxOutlen = s.rxIdx + 1)
      ∧ (s.rxIdx + 1 ≠ s.rxN → tt < tb + s.cfg.idleTimeout → t.armed = true ∧ t.rxOut = false))

/-- TICK and STATUS are idempotent (an inference the spec draws, 20_memory.md the memory write primitive): a second one
with the same inputs changes nothing more and answers the same; a second ARM after a successful one is ALREADY_ARMED. -/
def Obligations.TickAndStatusAreIdempotent : Prop :=
  (∀ s t : State, exec .tick s = .next t → exec .tick t = .next t)
    ∧ (∀ s t : State, exec .status s = .next t → exec .status t = .next t)
    ∧ (∀ (base : Addr) (cap : Half) (s t : State), exec (.arm base cap) s = .next t → t.resp = some (respWord 0x0 0) →
      exec (.arm base cap) t = .next { t with resp := some (respWord 0x1 0) })

/-- No command cancels an armed request (70_reset_and_hazards.md, reset has no soft equivalent): one command ends it only
by a BYTE that fills the buffer or a TICK that finds it idle. -/
def Obligations.OnlyAFillingByteOrAnIdleTickEndsARequest : Prop :=
  ∀ (i : Instr) (s t : State), s.armed = true → exec i s = .next t → t.armed = false →
    (∃ b, i = .byte b ∧ s.rxIdx + 1 = s.rxN)
      ∨ (i = .tick ∧ 0 < s.rxIdx.toNat ∧ s.rxLast + s.cfg.idleTimeout ≤ s.now)

/-- Part (c) of 10_state.md's engine invariants (an inference the spec draws): a successful ARM leaves ARMED = 1, and
from then on, without a reset, every step leaves ARMED = 1 or RX_OUT = 1. -/
def Obligations.OnceArmedAlwaysArmedOrCompleted : Prop :=
  (∀ (base : Addr) (cap : Half) (s t : State), exec (.arm base cap) s = .next t → s.armed = false →
      t.resp = some (respWord 0x0 0) → t.armed = true)
    ∧ (∀ s t : State, (s.armed = true ∨ s.rxOut = true) → s.pending.head? ≠ some .rst → step s = .next t →
      t.armed = true ∨ t.rxOut = true)

/-! ## Host memory -/

/-- Buffer ownership (20_memory.md R60): a host store into the engine's range while ARMED = 1 is refused; any other host
store writes its byte and nothing else; a host load, in the range or not, returns what stands at the address and changes
nothing. That the host's accesses are steps is the model's (log 5, 12). -/
def Obligations.HostAccessesRespectBufferOwnership : Prop :=
  ∀ (s : State) (a : Addr) (b : Byte) (rest : List PortEvent),
    (s.pending = .hostStore a b :: rest →
      (s.armed = true → (∃ k, k < s.rxN.toNat ∧ a = s.rxBase + BitVec.ofNat 32 k) →
        step s = .refused .hostStoreIntoArmedBuffer)
      ∧ ((s.armed = false ∨ ∀ k, k < s.rxN.toNat → a ≠ s.rxBase + BitVec.ofNat 32 k) →
        ∃ t, step s = .next t ∧ t.hostByte a = b ∧ (∀ c, c ≠ a → t.hostByte c = s.hostByte c)
          ∧ t = { s with pending := rest, resp := none, reading := none, loaded := none, mem := t.mem }))
    ∧ (s.pending = .hostLoad a :: rest →
      step s = .next { s with pending := rest, resp := none, reading := none, loaded := some (s.hostByte a) })

/-- Draining a buffer (30_encoding.md R91, 20_memory.md R53): the items of DRAIN, performed in order, are the FEEDs of
the bytes that stand in host memory at the buffer's addresses, modulo 2^32. The single-step loads are the model's
(log 12). -/
def Obligations.DrainFeedsTheBufferBytesInOrder : Prop :=
  ∀ (base : Addr) (n : Nat) (s : State),
    runScript (Script.drain base n) s
      = runScript (Script.feeds ((List.range n).map fun k => s.hostByte (base + BitVec.ofNat 32 k))) s

/-! ## The frame parser -/

/-- R132: the overflow guard. Outside AwaitSync1 with P_IDX >= FRAME_CAP, FEED resets the parser, answers
BUFFER_OVERFLOW and drops the byte; in AwaitSync1 it does not apply. -/
def Obligations.OverflowGuardResetsAndDropsTheByte : Prop :=
  ∀ (b : Byte) (s : State),
    (s.pStage ≠ .awaitSync1 → s.cfg.frameCap ≤ s.pIdx.toNat →
      exec (.feed b) s = .next { s with
        pStage := .awaitSync1, pIdx := 0, pLen := 0, pAcc := 0, resp := some 0x00000005#32, reading := none })
    ∧ (s.pStage = .awaitSync1 →
      ∃ t, exec (.feed b) s = .next t ∧ t.resp = some 0x00000000#32)

/-- R133: AwaitSync1 takes 0x42 and discards every other byte, PENDING either way. -/
def Obligations.AwaitSync1FollowsItsRule : Prop :=
  ∀ (b : Byte) (s : State), s.pStage = .awaitSync1 → exec (.feed b) s = .next (
    if b = 0x42 then { s with
      fb := s.fb.setByte 0 0x42, pIdx := 1, pAcc := 0x0042, pStage := .awaitSync2
      resp := some 0x00000000#32, reading := none }
    else { s with resp := some 0x00000000#32, reading := none })

/-- R134: AwaitSync2 takes 0x4D; any other byte is INVALID_SYNC and resets the parser, and a rejected 0x42 is taken at
once as a new sync-1. -/
def Obligations.AwaitSync2FollowsItsRule : Prop :=
  ∀ (b : Byte) (s : State), s.pStage = .awaitSync2 → s.pIdx.toNat < s.cfg.frameCap → exec (.feed b) s = .next (
    if b = 0x4D then { s with
      fb := s.fb.setByte s.pIdx.toNat 0x4D, pIdx := s.pIdx + 1, pAcc := s.pAcc + 0x004D, pStage := .readLenHi
      resp := some 0x00000000#32, reading := none }
    else if b = 0x42 then { s with
      fb := s.fb.setByte 0 0x42, pIdx := 1, pLen := 0, pAcc := 0x0042, pStage := .awaitSync2
      resp := some 0x00000002#32, reading := none }
    else { s with
      pStage := .awaitSync1, pIdx := 0, pLen := 0, pAcc := 0, resp := some 0x00000002#32, reading := none })

/-- R135: ReadLenHi takes any byte as the high byte of LEN. -/
def Obligations.ReadLenHiFollowsItsRule : Prop :=
  ∀ (b : Byte) (s : State), s.pStage = .readLenHi → s.pIdx.toNat < s.cfg.frameCap →
    exec (.feed b) s = .next { s with
      fb := s.fb.setByte s.pIdx.toNat b, pIdx := s.pIdx + 1, pAcc := s.pAcc + b.setWidth 16
      pLen := b ++ 0x00#8, pStage := .readLenLo, resp := some 0x00000000#32, reading := none }

/-- R136: ReadLenLo completes LEN. LEN below 2, or 4 + LEN above FRAME_CAP in full precision, is INVALID_LENGTH and
resets the parser; LEN = 2 under SKIP_DATA goes to ReadChecksumHi, every other accepted LEN to ReadData. -/
def Obligations.ReadLenLoFollowsItsRule : Prop :=
  ∀ (b : Byte) (s : State) (len : Half), s.pStage = .readLenLo → s.pIdx.toNat < s.cfg.frameCap →
    len = s.pLen.extractLsb' 8 8 ++ b →
    exec (.feed b) s = .next (
      if len.toNat < 2 ∨ 4 + len.toNat > s.cfg.frameCap then { s with
        fb := s.fb.setByte s.pIdx.toNat b, pStage := .awaitSync1, pIdx := 0, pLen := 0, pAcc := 0
        resp := some 0x00000003#32, reading := none }
      else { s with
        fb := s.fb.setByte s.pIdx.toNat b, pIdx := s.pIdx + 1, pAcc := s.pAcc + b.setWidth 16, pLen := len
        pStage := if len = 2 ∧ s.cfg.zeroData = .skipData then .readChecksumHi else .readData
        resp := some 0x00000000#32, reading := none })

/-- R137: ReadData stores the byte, sums it while its index is before the checksum field, and moves on once the index
reaches the checksum field (under ONE_BYTE_DATA also if it is past it). -/
def Obligations.ReadDataFollowsItsRule : Prop :=
  ∀ (b : Byte) (s : State), s.pStage = .readData → s.pIdx.toNat < s.cfg.frameCap →
    exec (.feed b) s = .next { s with
      fb := s.fb.setByte s.pIdx.toNat b, pIdx := s.pIdx + 1
      pAcc := if s.pIdx.toNat < 4 + s.pLen.toNat - 2 then s.pAcc + b.setWidth 16 else s.pAcc
      pStage := if (s.pIdx + 1).toNat = 4 + s.pLen.toNat - 2
          ∨ (s.cfg.zeroData = .oneByteData ∧ (s.pIdx + 1).toNat ≥ 4 + s.pLen.toNat - 2)
        then .readChecksumHi else .readData
      resp := some 0x00000000#32, reading := none }

/-- R138: ReadChecksumHi stores the byte, not summed, and goes on to ReadChecksumLo. -/
def Obligations.ReadChecksumHiFollowsItsRule : Prop :=
  ∀ (b : Byte) (s : State), s.pStage = .readChecksumHi → s.pIdx.toNat < s.cfg.frameCap →
    exec (.feed b) s = .next { s with
      fb := s.fb.setByte s.pIdx.toNat b, pIdx := s.pIdx + 1, pStage := .readChecksumLo
      resp := some 0x00000000#32, reading := none }

/-- R139 with R141: ReadChecksumLo stores the byte and compares the received checksum, the two bytes stored last, with
the accumulator. A match with LEN >= 28 is OK with the reading whose field i is be16(FB[4 + 2i], FB[5 + 2i]); a match
with a shorter LEN is INVALID_LENGTH; a mismatch is CHECKSUM_ERROR. The parser is reset either way. The premise
1 <= P_IDX holds in every state a run reaches (`State.ParserInv`). -/
def Obligations.ReadChecksumLoFollowsItsRule : Prop :=
  ∀ (b : Byte) (s : State), s.pStage = .readChecksumLo → 1 ≤ s.pIdx.toNat → s.pIdx.toNat < s.cfg.frameCap →
    s.cfg.frameCap ≤ 65539 →
    ∃ t, exec (.feed b) s = .next t
      ∧ t = { s with
        fb := s.fb.setByte s.pIdx.toNat b, pStage := .awaitSync1, pIdx := 0, pLen := 0, pAcc := 0
        resp := t.resp, reading := t.reading }
      ∧ (s.fbByte (s.pIdx.toNat - 1) ++ b ≠ s.pAcc → t.resp = some 0x00000004#32 ∧ t.reading = none)
      ∧ (s.fbByte (s.pIdx.toNat - 1) ++ b = s.pAcc → s.pLen.toNat < 28 →
        t.resp = some 0x00000003#32 ∧ t.reading = none)
      ∧ (s.fbByte (s.pIdx.toNat - 1) ++ b = s.pAcc → 28 ≤ s.pLen.toNat →
        t.resp = some 0x00000001#32 ∧ ∃ r, t.reading = some r
          ∧ ∀ i : Fin 12, r.field i = t.fbByte (4 + 2 * i.val) ++ t.fbByte (5 + 2 * i.val))

/-- The frame of FEED: it completes from every state, and leaves every engine register, every host byte, the parameters
and every FB byte unchanged but the one it stores: offset 0 for a byte taken as sync-1, offset P_IDX otherwise, none when
the guard drops the byte or a byte is discarded. -/
def Obligations.FeedChangesOnlyTheParser : Prop :=
  ∀ (b : Byte) (s : State), ∃ t, exec (.feed b) s = .next t
    ∧ t.armed = s.armed ∧ t.rxBase = s.rxBase ∧ t.rxN = s.rxN ∧ t.rxIdx = s.rxIdx ∧ t.rxLast = s.rxLast
    ∧ t.rxOut = s.rxOut ∧ t.rxOutlen = s.rxOutlen ∧ t.cfg = s.cfg
    ∧ t.now = s.now ∧ t.loaded = s.loaded ∧ t.pending = s.pending
    ∧ (∀ a, t.hostByte a = s.hostByte a)
    ∧ (∀ j, (s.pStage ≠ .awaitSync1 ∧ s.cfg.frameCap ≤ s.pIdx.toNat)
          ∨ ((s.pStage = .awaitSync1 ∨ (s.pStage = .awaitSync2 ∧ b ≠ 0x4D)) ∧ (b ≠ 0x42 ∨ j ≠ 0))
          ∨ (s.pStage ≠ .awaitSync1 ∧ (s.pStage = .awaitSync2 → b = 0x4D) ∧ j ≠ s.pIdx.toNat) →
        t.fbByte j = s.fbByte j)

/-- Checksum law (an inference the spec draws, 41_frame_parser.md laws of the parser): on entry to ReadChecksumHi, under
SKIP_DATA or with LEN >= 3, the accumulator is the sum modulo 2^16 of the frame bytes before the checksum field. -/
def Obligations.AccumulatorIsTheFrameSumAtTheChecksum : Prop :=
  ∀ (b : Byte) (s t : State), s.Inv → s.pStage ≠ .readChecksumHi → exec (.feed b) s = .next t →
    t.pStage = .readChecksumHi → (t.cfg.zeroData = .skipData ∨ 3 ≤ t.pLen.toNat) →
    t.pIdx.toNat = 4 + t.pLen.toNat - 2
      ∧ t.pAcc = byteSum ((List.range (4 + t.pLen.toNat - 2)).map t.fbByte)

/-- No spurious success (an inference the spec draws, 41_frame_parser.md laws of the parser): a FEED answers OK only in
ReadChecksumLo, only after a checksum match and only with LEN >= 28, and leaves the parser in AwaitSync1. -/
def Obligations.OkOnlyAfterAValidatedFrame : Prop :=
  ∀ (b : Byte) (s t : State), s.Inv → exec (.feed b) s = .next t → t.resp = some (respWord 0x1 0) →
    s.pStage = .readChecksumLo ∧ be16 (s.fbByte (s.pIdx.toNat - 1)) b = s.pAcc ∧ 28 ≤ s.pLen.toNat
      ∧ s.pAcc = byteSum ((List.range (4 + s.pLen.toNat - 2)).map s.fbByte)
      ∧ t.pStage = .awaitSync1

/-- Every terminal outcome leaves the parser in AwaitSync1, but for the re-entry of INVALID_SYNC, which leaves it in
AwaitSync2 (41_frame_parser.md R130, 60_exceptions.md errors instead of traps). -/
def Obligations.EveryErrorReturnsToSyncSearch : Prop :=
  ∀ (b : Byte) (s t : State), exec (.feed b) s = .next t → t.resp ≠ some (respWord 0x0 0) →
    t.pStage = .awaitSync1 ∧ t.pIdx = 0 ∧ t.pLen = 0 ∧ t.pAcc = 0
      ∨ s.pStage = .awaitSync2 ∧ b = 0x42 ∧ t.resp = some (respWord 0x2 0)
        ∧ t.pStage = .awaitSync2 ∧ t.pIdx = 1 ∧ t.pAcc = 0x0042

/-- A run of sync-1 bytes (an inference the spec draws, 41_frame_parser.md laws of the parser): after a sync-1, k bytes
0x42 give k INVALID_SYNC responses and leave the parser in AwaitSync2 with one byte held. -/
def Obligations.RunOfSyncBytesDoesNotGrow : Prop :=
  ∀ (k : Nat) (s : State), s.pStage = .awaitSync2 → s.pIdx = 1 → s.pAcc = 0x0042 → 32 ≤ s.cfg.frameCap →
    ∃ t, feedAll (List.replicate k 0x42) s = (List.replicate k (feedOutput s (respWord 0x2 0) none), .next t)
      ∧ t.pStage = .awaitSync2 ∧ t.pIdx = 1 ∧ t.pAcc = 0x0042
      ∧ ∀ j, j ≠ 0 → t.fbByte j = s.fbByte j

/-- Round trip (an inference the spec draws, 41_frame_parser.md laws of the parser). From AwaitSync1 under any legal
parameters and any policy, a frame with 28 <= LEN <= FRAME_CAP - 4 answers PENDING on every byte but the last. With a
valid checksum the last answers OK with the fields the frame carries; with any other checksum field it answers
CHECKSUM_ERROR. The parser ends in AwaitSync1. -/
def Obligations.ValidFrameIsReadBack : Prop :=
  ∀ (s : State) (data : List Byte) (c : Half), s.cfg.legal = true → s.pStage = .awaitSync1 →
    26 ≤ data.length → data.length + 6 ≤ s.cfg.frameCap →
    (∃ t r, feedAll (wireFrame data) s
        = (List.replicate (data.length + 5) (feedOutput s (respWord 0x0 0) none)
            ++ [feedOutput s (respWord 0x1 0) (some r)], .next t)
      ∧ t.pStage = .awaitSync1 ∧ ∀ i : Fin 12, r.field i = wireField (wireFrame data) i.val)
    ∧ (c ≠ frameSum data → ∃ t, feedAll (frameWith data c) s
        = (List.replicate (data.length + 5) (feedOutput s (respWord 0x0 0) none)
            ++ [feedOutput s (respWord 0x4 0) none], .next t)
      ∧ t.pStage = .awaitSync1)

/-- Resynchronisation (an inference the spec draws, 41_frame_parser.md laws of the parser). From AwaitSync1, garbage
without 0x42 and a lone 0x42, either directly before a valid frame or followed by one byte that is no sync byte, gives
PENDING up to the lone 0x42, INVALID_SYNC on the next byte, and then exactly one OK, on the frame's last byte. -/
def Obligations.ParserResynchronisesOnAFreshFrame : Prop :=
  ∀ (s : State) (garbage data : List Byte) (x : Byte), s.cfg.legal = true → s.pStage = .awaitSync1 →
    (0x42#8 ∉ garbage) → x ≠ 0x42 → x ≠ 0x4D → 26 ≤ data.length → data.length + 6 ≤ s.cfg.frameCap →
    (∃ t r, feedAll (garbage ++ [0x42] ++ wireFrame data) s
        = (List.replicate (garbage.length + 1) (feedOutput s (respWord 0x0 0) none)
            ++ [feedOutput s (respWord 0x2 0) none]
            ++ List.replicate (data.length + 4) (feedOutput s (respWord 0x0 0) none)
            ++ [feedOutput s (respWord 0x1 0) (some r)], .next t)
      ∧ ∀ i : Fin 12, r.field i = wireField (wireFrame data) i.val)
    ∧ (∃ t r, feedAll (garbage ++ [0x42, x] ++ wireFrame data) s
        = (List.replicate (garbage.length + 1) (feedOutput s (respWord 0x0 0) none)
            ++ [feedOutput s (respWord 0x2 0) none]
            ++ List.replicate (data.length + 5) (feedOutput s (respWord 0x0 0) none)
            ++ [feedOutput s (respWord 0x1 0) (some r)], .next t)
      ∧ ∀ i : Fin 12, r.field i = wireField (wireFrame data) i.val)

/-- Checksum sensitivity, data bytes (an inference the spec draws, 41_frame_parser.md laws of the parser): a valid frame
with exactly one bit of one data byte flipped, its checksum as sent, answers CHECKSUM_ERROR on its last byte. -/
def Obligations.FlippedDataBitGivesChecksumError : Prop :=
  ∀ (s : State) (data : List Byte) (k j : Nat), s.cfg.legal = true → s.pStage = .awaitSync1 →
    26 ≤ data.length → data.length + 6 ≤ s.cfg.frameCap → k < data.length → j < 8 →
    ∃ t, feedAll (frameWith (data.set k (data.getD k 0 ^^^ (1#8 <<< j))) (frameSum data)) s
        = (List.replicate (data.length + 5) (feedOutput s (respWord 0x0 0) none)
            ++ [feedOutput s (respWord 0x4 0) none], .next t)
      ∧ t.pStage = .awaitSync1

/-- A bit flipped in a sync byte, and a LEN that fails the check (an inference the spec draws, 41_frame_parser.md laws of
the parser). In sync-1: the byte is not recognised and the parser goes on searching. In sync-2: INVALID_SYNC and no
re-entry. A LEN, flipped or not, that fails the check: INVALID_LENGTH on the fourth byte. A flipped LEN that still passes
the check is not claimed to be rejected: the law leaves its outcome to the bytes. -/
def Obligations.FlippedSyncByteOrFailingLenEndsInSyncSearch : Prop :=
  ∀ (s : State) (j : Nat) (len : Half), s.cfg.legal = true → s.pStage = .awaitSync1 → j < 8 →
    (∃ t, feedAll [0x42 ^^^ (1#8 <<< j)] s = ([feedOutput s (respWord 0x0 0) none], .next t) ∧ t.pStage = .awaitSync1)
    ∧ (∃ t, feedAll [0x42, 0x4D ^^^ (1#8 <<< j)] s
        = ([feedOutput s (respWord 0x0 0) none, feedOutput s (respWord 0x2 0) none], .next t)
      ∧ t.pStage = .awaitSync1)
    ∧ (len.toNat < 2 ∨ s.cfg.frameCap < 4 + len.toNat →
      ∃ t, feedAll ([0x42, 0x4D] ++ wireHalf len) s
        = (List.replicate 3 (feedOutput s (respWord 0x0 0) none) ++ [feedOutput s (respWord 0x3 0) none], .next t)
      ∧ t.pStage = .awaitSync1)

/-- R143: a frame with LEN = 2, from AwaitSync1. SKIP_DATA takes 6 bytes, ONE_BYTE_DATA 7, the checksum then compared
with the sum of the four header bytes, INVALID_LENGTH on a match and CHECKSUM_ERROR otherwise; STALL_IN_DATA stores
every byte until FRAME_CAP are held and answers BUFFER_OVERFLOW on the next, which is dropped. -/
def Obligations.ZeroDataPoliciesDifferAsTabled : Prop :=
  ∀ (s : State) (d : Byte) (c : Half) (fill : List Byte) (last : Byte), s.cfg.legal = true → s.pStage = .awaitSync1 →
    (s.cfg.zeroData = .skipData → ∃ t, feedAll ([0x42, 0x4D, 0x00, 0x02] ++ wireHalf c) s
        = (List.replicate 5 (feedOutput s (respWord 0x0 0) none)
            ++ [feedOutput s (if c = 0x0091 then respWord 0x3 0 else respWord 0x4 0) none], .next t)
      ∧ t.pStage = .awaitSync1)
    ∧ (s.cfg.zeroData = .oneByteData → ∃ t, feedAll ([0x42, 0x4D, 0x00, 0x02, d] ++ wireHalf c) s
        = (List.replicate 6 (feedOutput s (respWord 0x0 0) none)
            ++ [feedOutput s (if c = 0x0091 then respWord 0x3 0 else respWord 0x4 0) none], .next t)
      ∧ t.pStage = .awaitSync1)
    ∧ (s.cfg.zeroData = .stallInData → fill.length + 4 = s.cfg.frameCap →
      ∃ t, feedAll ([0x42, 0x4D, 0x00, 0x02] ++ fill ++ [last]) s
        = (List.replicate s.cfg.frameCap (feedOutput s (respWord 0x0 0) none)
            ++ [feedOutput s (respWord 0x5 0) none], .next t)
      ∧ t.pStage = .awaitSync1 ∧ t.pIdx = 0)

/-- Overflow reachability (an inference the spec draws, 41_frame_parser.md laws of the parser): under SKIP_DATA and
ONE_BYTE_DATA no FEED answers BUFFER_OVERFLOW, in any state that keeps the machine's invariant. -/
def Obligations.NoOverflowUnderTerminatingPolicies : Prop :=
  ∀ (b : Byte) (s t : State), s.Inv → s.cfg.zeroData ≠ .stallInData → exec (.feed b) s = .next t →
    t.resp ≠ some (respWord 0x5 0)

/-- Independence from the engine and from buffer boundaries (an inference the spec draws, 41_frame_parser.md laws of the
parser): two command orders that feed the same bytes, from states whose parser registers agree, give the same FEED
outcomes and readings in the same order, whatever ARM, BYTE, TICK and STATUS commands stand between, and at whatever
times. Under the machine's invariant FB need agree only on the bytes held, below P_IDX: what stands above is never
observed (10_state.md R34), so two parsers just reset give the same outcomes whatever their FB holds. Without the
invariant, FB is taken to agree at every offset. -/
def Obligations.FeedOutcomesDependOnlyOnTheBytesFed : Prop :=
  ∀ (cs ds : List (Instr × Nat)) (s t : State), fedBytes cs = fedBytes ds →
    s.cfg = t.cfg → s.pStage = t.pStage → s.pIdx = t.pIdx → s.pLen = t.pLen → s.pAcc = t.pAcc →
    (s.Inv → t.Inv → (∀ j, j < s.pIdx.toNat → s.fbByte j = t.fbByte j) → feedOutputs cs s = feedOutputs ds t)
      ∧ ((∀ j, s.fbByte j = t.fbByte j) → feedOutputs cs s = feedOutputs ds t)

/-! ## Invariants -/

/-- Every step keeps the machine's invariant: legal parameters, both memories in canonical form, P_IDX within FRAME_CAP,
the frame bytes held, the engine's invariants (10_state.md, engine registers) and the parser's table by stage (10_state.md,
parser registers). (The canonical form and the step's events are the model's: log 6, 7, 12.) -/
def Obligations.EveryStepKeepsTheInvariant : Prop :=
  ∀ s t : State, s.Inv → step s = .next t → t.Inv

/-- The invariant holds at reset under every legal configuration, the reference one among them. -/
def Obligations.ResetMeetsTheInvariant : Prop :=
  State.reset.Inv ∧ ∀ cfg : Config, cfg.legal = true → (State.resetWith cfg).Inv

/-- Under a duty-keeping order (HD6, 70_reset_and_hazards.md host duties) no command samples a time before the last
activity: from a state whose last activity is not after the first sampled time, RX_LAST never exceeds the time of a later
sample. -/
def Obligations.LastActivityNeverRunsAheadOfTime : Prop :=
  ∀ (cs ds : List (Instr × Nat)) (s t : State),
    KeepsTime ((cs ++ ds).map fun c => Script.present c.1 c.2) →
    (∀ c ∈ cs ++ ds, samplesNow c.1 = true → s.rxLast ≤ c.2) →
    (performAll cs s).2 = .next t →
    ∀ c ∈ ds, samplesNow c.1 = true → t.rxLast ≤ c.2
end

