-- ==== Sys2Proof/Laws/Bits.lean ====
section
/-! SUPPORT. Fields and concatenations of bit vectors as arithmetic on natural numbers, so that `omega` settles them. -/

namespace Sys2Proof

/-- A concatenation as a number. The widths are explicit so that the lemma rewrites at a literal width. -/
theorem append_toNat (n m : Nat) (x : BitVec n) (y : BitVec m) : (x ++ y).toNat = x.toNat * 2 ^ m + y.toNat := by
  rw [BitVec.toNat_append, ← Nat.shiftLeft_add_eq_or_of_lt y.isLt, Nat.shiftLeft_eq]

/-- A field of a command word as a number. -/
theorem cmdField_toNat (w : CmdWord) (hi lo : Nat) :
    (cmdField w hi lo).toNat = w.toNat / 2 ^ lo % 2 ^ (hi - lo + 1) := by
  rw [cmdField, BitVec.extractLsb_toNat, Nat.shiftRight_eq_div_pow]

/-- The numbers the formats of 30_encoding.md R71 to R76 stand for. -/
theorem encode_toNat (i : Instr) : (encode i).toNat =
    match i with
    | .arm base cap => 2 ^ 60 + cap.toNat * 2 ^ 32 + base.toNat
    | .byte b => 2 * 2 ^ 60 + b.toNat
    | .tick => 3 * 2 ^ 60
    | .status => 4 * 2 ^ 60
    | .feed b => 5 * 2 ^ 60 + b.toNat := by
  cases i with
  | arm base cap =>
    simp only [encode]
    rw [append_toNat 32 32, append_toNat 16 16, append_toNat 4 12]
    simp only [BitVec.toNat_ofNat]
    omega
  | byte b =>
    simp only [encode]
    rw [append_toNat 56 8, append_toNat 4 52]
    simp only [BitVec.toNat_ofNat]
    omega
  | tick => rfl
  | status => rfl
  | feed b =>
    simp only [encode]
    rw [append_toNat 56 8, append_toNat 4 52]
    simp only [BitVec.toNat_ofNat]
    omega

/-- The check of the must-be-zero bits (R79). -/
theorem whenZero_eq_legal {n : Nat} {z : BitVec n} {i j : Instr} :
    whenZero z i = .legal j ↔ z = 0 ∧ i = j := by
  by_cases h : z = 0
  · rw [whenZero, if_pos h]
    exact ⟨fun e => ⟨h, Decoded.legal.inj e⟩, fun e => congrArg _ e.2⟩
  · rw [whenZero, if_neg h]
    exact ⟨fun e => (nomatch e), fun e => absurd e.1 h⟩

namespace Machine

theorem be16_toNat (hi lo : Byte) : (be16 hi lo).toNat = hi.toNat * 256 + lo.toNat := append_toNat 8 8 hi lo

/-- Two big-endian pairs agree only byte by byte. -/
theorem be16_inj {a b c d : Byte} : be16 a b = be16 c d ↔ a = c ∧ b = d := by
  constructor
  · intro h
    have h' := congrArg BitVec.toNat h
    rw [be16_toNat, be16_toNat] at h'
    have := a.isLt; have := b.isLt; have := c.isLt; have := d.isLt
    exact ⟨BitVec.eq_of_toNat_eq (by omega), BitVec.eq_of_toNat_eq (by omega)⟩
  · rintro ⟨rfl, rfl⟩; rfl

/-- A 16-bit value is the pair of its bytes. -/
theorem be16_extract (v : Half) : be16 (v.extractLsb 15 8) (v.extractLsb 7 0) = v := by
  apply BitVec.eq_of_toNat_eq
  have := v.isLt
  rw [be16_toNat, BitVec.extractLsb_toNat, BitVec.extractLsb_toNat, Nat.shiftRight_eq_div_pow,
    Nat.shiftRight_eq_div_pow]
  omega

/-- The high byte of a pair. -/
theorem be16_high (hi lo : Byte) : (be16 hi lo).extractLsb 15 8 = hi := by
  apply BitVec.eq_of_toNat_eq
  have := hi.isLt; have := lo.isLt
  rw [BitVec.extractLsb_toNat, Nat.shiftRight_eq_div_pow, be16_toNat]
  omega

theorem addByte_toNat (acc : Half) (b : Byte) : (addByte acc b).toNat = (acc.toNat + b.toNat) % 2 ^ 16 := by
  have := b.isLt
  rw [addByte, BitVec.toNat_add, BitVec.toNat_setWidth]
  omega

theorem bufferAddr_toNat (s : State) : s.bufferAddr.toNat = (s.rxBase.toNat + s.rxIdx.toNat) % 2 ^ 32 := by
  have := s.rxIdx.isLt
  rw [State.bufferAddr, BitVec.toNat_add, BitVec.toNat_setWidth]
  omega

end Machine

end Sys2Proof
end

