-- ==== Sys2Proof/Laws/Memory.lean ====
section
/-! SUPPORT. Reading after writing, and the canonical form of a memory. -/

namespace Sys2Proof.Machine

theorem byteAt_setByte_same (m : Memory) (a : Nat) (b : Byte) : (m.setByte a b).byteAt a = some b := by
  induction m with
  | nil => simp [Memory.setByte, Memory.byteAt]
  | cons c rest ih =>
    simp only [Memory.setByte]
    split_ifs with h1 h2
    · simp [Memory.byteAt]
    · simp [Memory.byteAt]
    · simp [Memory.byteAt, ih, Ne.symm h2]

theorem byteAt_setByte_other (m : Memory) {a c : Nat} (b : Byte) (h : c ≠ a) :
    (m.setByte a b).byteAt c = m.byteAt c := by
  induction m with
  | nil => simp [Memory.setByte, Memory.byteAt, h.symm]
  | cons d rest ih =>
    simp only [Memory.setByte]
    split_ifs with h1 h2
    · simp [Memory.byteAt, h.symm]
    · simp [Memory.byteAt, h.symm, ← h2]
    · simp [Memory.byteAt, ih]

theorem byteAt_setByte (m : Memory) (a c : Nat) (b : Byte) :
    (m.setByte a b).byteAt c = if c = a then some b else m.byteAt c := by
  split_ifs with h
  · rw [h, byteAt_setByte_same]
  · exact byteAt_setByte_other m b h

/-- A memory that rises from `low` on also rises from any lower start. -/
theorem risesFrom_mono {size : Nat} {m : Memory} {low low' : Nat} (h : low' ≤ low)
    (hm : Memory.risesFrom size low m = true) : Memory.risesFrom size low' m = true := by
  cases m with
  | nil => rfl
  | cons c rest =>
    simp only [Memory.risesFrom, Bool.and_eq_true, decide_eq_true_eq] at hm ⊢
    exact ⟨⟨h.trans hm.1.1, hm.1.2⟩, hm.2⟩

theorem risesFrom_setByte {size : Nat} {m : Memory} {low a : Nat} (b : Byte) (hl : low ≤ a) (ha : a < size)
    (hm : Memory.risesFrom size low m = true) : Memory.risesFrom size low (m.setByte a b) = true := by
  induction m generalizing low with
  | nil => simp [Memory.setByte, Memory.risesFrom, hl, ha]
  | cons c rest ih =>
    simp only [Memory.risesFrom, Bool.and_eq_true, decide_eq_true_eq] at hm
    simp only [Memory.setByte]
    split_ifs with h1 h2
    · simp only [Memory.risesFrom, Bool.and_eq_true, decide_eq_true_eq]
      exact ⟨⟨hl, ha⟩, ⟨by omega, hm.1.2⟩, hm.2⟩
    · simp only [Memory.risesFrom, Bool.and_eq_true, decide_eq_true_eq]
      exact ⟨⟨hl, ha⟩, h2 ▸ hm.2⟩
    · simp only [Memory.risesFrom, Bool.and_eq_true, decide_eq_true_eq]
      exact ⟨hm.1, ih (by omega) hm.2⟩

/-- Every write inside the memory keeps the canonical form. -/
theorem wf_setByte {size : Nat} {m : Memory} {a : Nat} (b : Byte) (ha : a < size) (hm : m.wf size = true) :
    (m.setByte a b).wf size = true :=
  risesFrom_setByte b (Nat.zero_le a) ha hm

/-- Below the first listed address nothing is listed. -/
theorem byteAt_of_lt {size : Nat} {m : Memory} {low a : Nat} (hm : Memory.risesFrom size low m = true) (h : a < low) :
    m.byteAt a = none := by
  induction m generalizing low with
  | nil => rfl
  | cons c rest ih =>
    simp only [Memory.risesFrom, Bool.and_eq_true, decide_eq_true_eq] at hm
    have : ¬ c.1 = a := by omega
    simp [Memory.byteAt, this, ih hm.2 (by omega)]

/-- Two canonical memories that list the same bytes are the same data. -/
theorem eq_of_byteAt {size : Nat} {m n : Memory} {low : Nat} (hm : Memory.risesFrom size low m = true)
    (hn : Memory.risesFrom size low n = true) (h : ∀ a, m.byteAt a = n.byteAt a) : m = n := by
  induction m generalizing n low with
  | nil =>
    cases n with
    | nil => rfl
    | cons d rest =>
      have := h d.1
      simp [Memory.byteAt] at this
  | cons c rest ih =>
    cases n with
    | nil =>
      have := h c.1
      simp [Memory.byteAt] at this
    | cons d rest' =>
      have hm' := hm
      have hn' := hn
      simp only [Memory.risesFrom, Bool.and_eq_true, decide_eq_true_eq] at hm hn
      have hcd : c.1 = d.1 := by
        by_contra hne
        rcases Nat.lt_or_gt_of_ne hne with hlt | hlt
        · have h1 := h c.1
          rw [byteAt_of_lt (m := d :: rest') (low := d.1) (size := size)
            (by simp [Memory.risesFrom, hn.1.2, hn.2]) hlt] at h1
          simp [Memory.byteAt] at h1
        · have h1 := h d.1
          rw [byteAt_of_lt (m := c :: rest) (low := c.1) (size := size)
            (by simp [Memory.risesFrom, hm.1.2, hm.2]) hlt] at h1
          simp [Memory.byteAt] at h1
      have hb : c.2 = d.2 := by
        have h1 := h c.1
        simp only [Memory.byteAt, if_true, hcd.symm, Option.some.injEq] at h1
        exact h1
      have hc : c = d := Prod.ext hcd hb
      subst hc
      refine congrArg (c :: ·) (ih hm.2 hn.2 fun a => ?_)
      by_cases ha : c.1 = a
      · rw [byteAt_of_lt hm.2 (by omega), byteAt_of_lt hn.2 (by omega)]
      · have h1 := h a
        simpa [Memory.byteAt, ha] using h1

end Sys2Proof.Machine
end

