-- ==== Sys2Proof/Laws/State.lean ====
section
/-! SUPPORT. What each update of the state writes, and that it leaves every other field: one lemma a field. -/

namespace Sys2Proof.Machine

variable (s : State)

/-! ## memWrite -/

@[simp] theorem memWrite_cfg (a : Addr) (b : Byte) : (s.memWrite a b).cfg = s.cfg := rfl
@[simp] theorem memWrite_armed (a : Addr) (b : Byte) : (s.memWrite a b).armed = s.armed := rfl
@[simp] theorem memWrite_rxBase (a : Addr) (b : Byte) : (s.memWrite a b).rxBase = s.rxBase := rfl
@[simp] theorem memWrite_rxN (a : Addr) (b : Byte) : (s.memWrite a b).rxN = s.rxN := rfl
@[simp] theorem memWrite_rxIdx (a : Addr) (b : Byte) : (s.memWrite a b).rxIdx = s.rxIdx := rfl
@[simp] theorem memWrite_rxLast (a : Addr) (b : Byte) : (s.memWrite a b).rxLast = s.rxLast := rfl
@[simp] theorem memWrite_rxOut (a : Addr) (b : Byte) : (s.memWrite a b).rxOut = s.rxOut := rfl
@[simp] theorem memWrite_rxOutlen (a : Addr) (b : Byte) : (s.memWrite a b).rxOutlen = s.rxOutlen := rfl
@[simp] theorem memWrite_pStage (a : Addr) (b : Byte) : (s.memWrite a b).pStage = s.pStage := rfl
@[simp] theorem memWrite_pIdx (a : Addr) (b : Byte) : (s.memWrite a b).pIdx = s.pIdx := rfl
@[simp] theorem memWrite_pLen (a : Addr) (b : Byte) : (s.memWrite a b).pLen = s.pLen := rfl
@[simp] theorem memWrite_pAcc (a : Addr) (b : Byte) : (s.memWrite a b).pAcc = s.pAcc := rfl
@[simp] theorem memWrite_fb (a : Addr) (b : Byte) : (s.memWrite a b).fb = s.fb := rfl
@[simp] theorem memWrite_resets (a : Addr) (b : Byte) : (s.memWrite a b).resets = s.resets := rfl
@[simp] theorem memWrite_mem (a : Addr) (b : Byte) : (s.memWrite a b).mem = s.mem.setByte a.toNat b := rfl
@[simp] theorem memWrite_now (a : Addr) (b : Byte) : (s.memWrite a b).now = s.now := rfl
@[simp] theorem memWrite_resp (a : Addr) (b : Byte) : (s.memWrite a b).resp = s.resp := rfl
@[simp] theorem memWrite_reading (a : Addr) (b : Byte) : (s.memWrite a b).reading = s.reading := rfl
@[simp] theorem memWrite_loaded (a : Addr) (b : Byte) : (s.memWrite a b).loaded = s.loaded := rfl
@[simp] theorem memWrite_pending (a : Addr) (b : Byte) : (s.memWrite a b).pending = s.pending := rfl

/-! ## fbWrite -/

@[simp] theorem fbWrite_cfg (i : Nat) (b : Byte) : (s.fbWrite i b).cfg = s.cfg := rfl
@[simp] theorem fbWrite_armed (i : Nat) (b : Byte) : (s.fbWrite i b).armed = s.armed := rfl
@[simp] theorem fbWrite_rxBase (i : Nat) (b : Byte) : (s.fbWrite i b).rxBase = s.rxBase := rfl
@[simp] theorem fbWrite_rxN (i : Nat) (b : Byte) : (s.fbWrite i b).rxN = s.rxN := rfl
@[simp] theorem fbWrite_rxIdx (i : Nat) (b : Byte) : (s.fbWrite i b).rxIdx = s.rxIdx := rfl
@[simp] theorem fbWrite_rxLast (i : Nat) (b : Byte) : (s.fbWrite i b).rxLast = s.rxLast := rfl
@[simp] theorem fbWrite_rxOut (i : Nat) (b : Byte) : (s.fbWrite i b).rxOut = s.rxOut := rfl
@[simp] theorem fbWrite_rxOutlen (i : Nat) (b : Byte) : (s.fbWrite i b).rxOutlen = s.rxOutlen := rfl
@[simp] theorem fbWrite_pStage (i : Nat) (b : Byte) : (s.fbWrite i b).pStage = s.pStage := rfl
@[simp] theorem fbWrite_pIdx (i : Nat) (b : Byte) : (s.fbWrite i b).pIdx = s.pIdx := rfl
@[simp] theorem fbWrite_pLen (i : Nat) (b : Byte) : (s.fbWrite i b).pLen = s.pLen := rfl
@[simp] theorem fbWrite_pAcc (i : Nat) (b : Byte) : (s.fbWrite i b).pAcc = s.pAcc := rfl
@[simp] theorem fbWrite_fb (i : Nat) (b : Byte) : (s.fbWrite i b).fb = s.fb.setByte i b := rfl
@[simp] theorem fbWrite_resets (i : Nat) (b : Byte) : (s.fbWrite i b).resets = s.resets := rfl
@[simp] theorem fbWrite_mem (i : Nat) (b : Byte) : (s.fbWrite i b).mem = s.mem := rfl
@[simp] theorem fbWrite_now (i : Nat) (b : Byte) : (s.fbWrite i b).now = s.now := rfl
@[simp] theorem fbWrite_resp (i : Nat) (b : Byte) : (s.fbWrite i b).resp = s.resp := rfl
@[simp] theorem fbWrite_reading (i : Nat) (b : Byte) : (s.fbWrite i b).reading = s.reading := rfl
@[simp] theorem fbWrite_loaded (i : Nat) (b : Byte) : (s.fbWrite i b).loaded = s.loaded := rfl
@[simp] theorem fbWrite_pending (i : Nat) (b : Byte) : (s.fbWrite i b).pending = s.pending := rfl

/-! ## fbPush -/

@[simp] theorem fbPush_cfg (b : Byte) : (s.fbPush b).cfg = s.cfg := rfl
@[simp] theorem fbPush_armed (b : Byte) : (s.fbPush b).armed = s.armed := rfl
@[simp] theorem fbPush_rxBase (b : Byte) : (s.fbPush b).rxBase = s.rxBase := rfl
@[simp] theorem fbPush_rxN (b : Byte) : (s.fbPush b).rxN = s.rxN := rfl
@[simp] theorem fbPush_rxIdx (b : Byte) : (s.fbPush b).rxIdx = s.rxIdx := rfl
@[simp] theorem fbPush_rxLast (b : Byte) : (s.fbPush b).rxLast = s.rxLast := rfl
@[simp] theorem fbPush_rxOut (b : Byte) : (s.fbPush b).rxOut = s.rxOut := rfl
@[simp] theorem fbPush_rxOutlen (b : Byte) : (s.fbPush b).rxOutlen = s.rxOutlen := rfl
@[simp] theorem fbPush_pStage (b : Byte) : (s.fbPush b).pStage = s.pStage := rfl
@[simp] theorem fbPush_pIdx (b : Byte) : (s.fbPush b).pIdx = s.pIdx + 1 := rfl
@[simp] theorem fbPush_pLen (b : Byte) : (s.fbPush b).pLen = s.pLen := rfl
@[simp] theorem fbPush_pAcc (b : Byte) : (s.fbPush b).pAcc = s.pAcc := rfl
@[simp] theorem fbPush_fb (b : Byte) : (s.fbPush b).fb = s.fb.setByte s.pIdx.toNat b := rfl
@[simp] theorem fbPush_resets (b : Byte) : (s.fbPush b).resets = s.resets := rfl
@[simp] theorem fbPush_mem (b : Byte) : (s.fbPush b).mem = s.mem := rfl
@[simp] theorem fbPush_now (b : Byte) : (s.fbPush b).now = s.now := rfl
@[simp] theorem fbPush_resp (b : Byte) : (s.fbPush b).resp = s.resp := rfl
@[simp] theorem fbPush_reading (b : Byte) : (s.fbPush b).reading = s.reading := rfl
@[simp] theorem fbPush_loaded (b : Byte) : (s.fbPush b).loaded = s.loaded := rfl
@[simp] theorem fbPush_pending (b : Byte) : (s.fbPush b).pending = s.pending := rfl

/-! ## respond -/

@[simp] theorem respond_cfg (c : BitVec 4) (v : Half) : (s.respond c v).cfg = s.cfg := rfl
@[simp] theorem respond_armed (c : BitVec 4) (v : Half) : (s.respond c v).armed = s.armed := rfl
@[simp] theorem respond_rxBase (c : BitVec 4) (v : Half) : (s.respond c v).rxBase = s.rxBase := rfl
@[simp] theorem respond_rxN (c : BitVec 4) (v : Half) : (s.respond c v).rxN = s.rxN := rfl
@[simp] theorem respond_rxIdx (c : BitVec 4) (v : Half) : (s.respond c v).rxIdx = s.rxIdx := rfl
@[simp] theorem respond_rxLast (c : BitVec 4) (v : Half) : (s.respond c v).rxLast = s.rxLast := rfl
@[simp] theorem respond_rxOut (c : BitVec 4) (v : Half) : (s.respond c v).rxOut = s.rxOut := rfl
@[simp] theorem respond_rxOutlen (c : BitVec 4) (v : Half) : (s.respond c v).rxOutlen = s.rxOutlen := rfl
@[simp] theorem respond_pStage (c : BitVec 4) (v : Half) : (s.respond c v).pStage = s.pStage := rfl
@[simp] theorem respond_pIdx (c : BitVec 4) (v : Half) : (s.respond c v).pIdx = s.pIdx := rfl
@[simp] theorem respond_pLen (c : BitVec 4) (v : Half) : (s.respond c v).pLen = s.pLen := rfl
@[simp] theorem respond_pAcc (c : BitVec 4) (v : Half) : (s.respond c v).pAcc = s.pAcc := rfl
@[simp] theorem respond_fb (c : BitVec 4) (v : Half) : (s.respond c v).fb = s.fb := rfl
@[simp] theorem respond_resets (c : BitVec 4) (v : Half) : (s.respond c v).resets = s.resets := rfl
@[simp] theorem respond_mem (c : BitVec 4) (v : Half) : (s.respond c v).mem = s.mem := rfl
@[simp] theorem respond_now (c : BitVec 4) (v : Half) : (s.respond c v).now = s.now := rfl
@[simp] theorem respond_resp (c : BitVec 4) (v : Half) : (s.respond c v).resp = some (respWord c v) := rfl
@[simp] theorem respond_reading (c : BitVec 4) (v : Half) : (s.respond c v).reading = none := rfl
@[simp] theorem respond_loaded (c : BitVec 4) (v : Half) : (s.respond c v).loaded = s.loaded := rfl
@[simp] theorem respond_pending (c : BitVec 4) (v : Half) : (s.respond c v).pending = s.pending := rfl

/-! ## emit -/

@[simp] theorem emit_cfg (r : Reading) : (s.emit r).cfg = s.cfg := rfl
@[simp] theorem emit_armed (r : Reading) : (s.emit r).armed = s.armed := rfl
@[simp] theorem emit_rxBase (r : Reading) : (s.emit r).rxBase = s.rxBase := rfl
@[simp] theorem emit_rxN (r : Reading) : (s.emit r).rxN = s.rxN := rfl
@[simp] theorem emit_rxIdx (r : Reading) : (s.emit r).rxIdx = s.rxIdx := rfl
@[simp] theorem emit_rxLast (r : Reading) : (s.emit r).rxLast = s.rxLast := rfl
@[simp] theorem emit_rxOut (r : Reading) : (s.emit r).rxOut = s.rxOut := rfl
@[simp] theorem emit_rxOutlen (r : Reading) : (s.emit r).rxOutlen = s.rxOutlen := rfl
@[simp] theorem emit_pStage (r : Reading) : (s.emit r).pStage = s.pStage := rfl
@[simp] theorem emit_pIdx (r : Reading) : (s.emit r).pIdx = s.pIdx := rfl
@[simp] theorem emit_pLen (r : Reading) : (s.emit r).pLen = s.pLen := rfl
@[simp] theorem emit_pAcc (r : Reading) : (s.emit r).pAcc = s.pAcc := rfl
@[simp] theorem emit_fb (r : Reading) : (s.emit r).fb = s.fb := rfl
@[simp] theorem emit_resets (r : Reading) : (s.emit r).resets = s.resets := rfl
@[simp] theorem emit_mem (r : Reading) : (s.emit r).mem = s.mem := rfl
@[simp] theorem emit_now (r : Reading) : (s.emit r).now = s.now := rfl
@[simp] theorem emit_resp (r : Reading) : (s.emit r).resp = s.resp := rfl
@[simp] theorem emit_reading (r : Reading) : (s.emit r).reading = some r := rfl
@[simp] theorem emit_loaded (r : Reading) : (s.emit r).loaded = s.loaded := rfl
@[simp] theorem emit_pending (r : Reading) : (s.emit r).pending = s.pending := rfl

/-! ## parserReset -/

@[simp] theorem parserReset_cfg : (s.parserReset).cfg = s.cfg := rfl
@[simp] theorem parserReset_armed : (s.parserReset).armed = s.armed := rfl
@[simp] theorem parserReset_rxBase : (s.parserReset).rxBase = s.rxBase := rfl
@[simp] theorem parserReset_rxN : (s.parserReset).rxN = s.rxN := rfl
@[simp] theorem parserReset_rxIdx : (s.parserReset).rxIdx = s.rxIdx := rfl
@[simp] theorem parserReset_rxLast : (s.parserReset).rxLast = s.rxLast := rfl
@[simp] theorem parserReset_rxOut : (s.parserReset).rxOut = s.rxOut := rfl
@[simp] theorem parserReset_rxOutlen : (s.parserReset).rxOutlen = s.rxOutlen := rfl
@[simp] theorem parserReset_pStage : (s.parserReset).pStage = .awaitSync1 := rfl
@[simp] theorem parserReset_pIdx : (s.parserReset).pIdx = 0 := rfl
@[simp] theorem parserReset_pLen : (s.parserReset).pLen = 0 := rfl
@[simp] theorem parserReset_pAcc : (s.parserReset).pAcc = 0 := rfl
@[simp] theorem parserReset_fb : (s.parserReset).fb = s.fb := rfl
@[simp] theorem parserReset_resets : (s.parserReset).resets = s.resets := rfl
@[simp] theorem parserReset_mem : (s.parserReset).mem = s.mem := rfl
@[simp] theorem parserReset_now : (s.parserReset).now = s.now := rfl
@[simp] theorem parserReset_resp : (s.parserReset).resp = s.resp := rfl
@[simp] theorem parserReset_reading : (s.parserReset).reading = s.reading := rfl
@[simp] theorem parserReset_loaded : (s.parserReset).loaded = s.loaded := rfl
@[simp] theorem parserReset_pending : (s.parserReset).pending = s.pending := rfl

/-! ## completeWith -/

@[simp] theorem completeWith_cfg (n : Half) : (s.completeWith n).cfg = s.cfg := rfl
@[simp] theorem completeWith_armed (n : Half) : (s.completeWith n).armed = false := rfl
@[simp] theorem completeWith_rxBase (n : Half) : (s.completeWith n).rxBase = s.rxBase := rfl
@[simp] theorem completeWith_rxN (n : Half) : (s.completeWith n).rxN = s.rxN := rfl
@[simp] theorem completeWith_rxIdx (n : Half) : (s.completeWith n).rxIdx = s.rxIdx := rfl
@[simp] theorem completeWith_rxLast (n : Half) : (s.completeWith n).rxLast = s.rxLast := rfl
@[simp] theorem completeWith_rxOut (n : Half) : (s.completeWith n).rxOut = true := rfl
@[simp] theorem completeWith_rxOutlen (n : Half) : (s.completeWith n).rxOutlen = n := rfl
@[simp] theorem completeWith_pStage (n : Half) : (s.completeWith n).pStage = s.pStage := rfl
@[simp] theorem completeWith_pIdx (n : Half) : (s.completeWith n).pIdx = s.pIdx := rfl
@[simp] theorem completeWith_pLen (n : Half) : (s.completeWith n).pLen = s.pLen := rfl
@[simp] theorem completeWith_pAcc (n : Half) : (s.completeWith n).pAcc = s.pAcc := rfl
@[simp] theorem completeWith_fb (n : Half) : (s.completeWith n).fb = s.fb := rfl
@[simp] theorem completeWith_resets (n : Half) : (s.completeWith n).resets = s.resets := rfl
@[simp] theorem completeWith_mem (n : Half) : (s.completeWith n).mem = s.mem := rfl
@[simp] theorem completeWith_now (n : Half) : (s.completeWith n).now = s.now := rfl
@[simp] theorem completeWith_resp (n : Half) : (s.completeWith n).resp = s.resp := rfl
@[simp] theorem completeWith_reading (n : Half) : (s.completeWith n).reading = s.reading := rfl
@[simp] theorem completeWith_loaded (n : Half) : (s.completeWith n).loaded = s.loaded := rfl
@[simp] theorem completeWith_pending (n : Half) : (s.completeWith n).pending = s.pending := rfl

/-! ## armWith -/

@[simp] theorem armWith_cfg (base : Addr) (cap : Half) : (s.armWith base cap).cfg = s.cfg := rfl
@[simp] theorem armWith_armed (base : Addr) (cap : Half) : (s.armWith base cap).armed = true := rfl
@[simp] theorem armWith_rxBase (base : Addr) (cap : Half) : (s.armWith base cap).rxBase = base := rfl
@[simp] theorem armWith_rxN (base : Addr) (cap : Half) : (s.armWith base cap).rxN = cap := rfl
@[simp] theorem armWith_rxIdx (base : Addr) (cap : Half) : (s.armWith base cap).rxIdx = 0 := rfl
@[simp] theorem armWith_rxLast (base : Addr) (cap : Half) : (s.armWith base cap).rxLast = s.now := rfl
@[simp] theorem armWith_rxOut (base : Addr) (cap : Half) : (s.armWith base cap).rxOut = false := rfl
@[simp] theorem armWith_rxOutlen (base : Addr) (cap : Half) : (s.armWith base cap).rxOutlen = 0 := rfl
@[simp] theorem armWith_pStage (base : Addr) (cap : Half) : (s.armWith base cap).pStage = s.pStage := rfl
@[simp] theorem armWith_pIdx (base : Addr) (cap : Half) : (s.armWith base cap).pIdx = s.pIdx := rfl
@[simp] theorem armWith_pLen (base : Addr) (cap : Half) : (s.armWith base cap).pLen = s.pLen := rfl
@[simp] theorem armWith_pAcc (base : Addr) (cap : Half) : (s.armWith base cap).pAcc = s.pAcc := rfl
@[simp] theorem armWith_fb (base : Addr) (cap : Half) : (s.armWith base cap).fb = s.fb := rfl
@[simp] theorem armWith_resets (base : Addr) (cap : Half) : (s.armWith base cap).resets = s.resets := rfl
@[simp] theorem armWith_mem (base : Addr) (cap : Half) : (s.armWith base cap).mem = s.mem := rfl
@[simp] theorem armWith_now (base : Addr) (cap : Half) : (s.armWith base cap).now = s.now := rfl
@[simp] theorem armWith_resp (base : Addr) (cap : Half) : (s.armWith base cap).resp = s.resp := rfl
@[simp] theorem armWith_reading (base : Addr) (cap : Half) : (s.armWith base cap).reading = s.reading := rfl
@[simp] theorem armWith_loaded (base : Addr) (cap : Half) : (s.armWith base cap).loaded = s.loaded := rfl
@[simp] theorem armWith_pending (base : Addr) (cap : Half) : (s.armWith base cap).pending = s.pending := rfl

/-! ## storeReceived -/

@[simp] theorem storeReceived_cfg (b : Byte) : (s.storeReceived b).cfg = s.cfg := rfl
@[simp] theorem storeReceived_armed (b : Byte) : (s.storeReceived b).armed = s.armed := rfl
@[simp] theorem storeReceived_rxBase (b : Byte) : (s.storeReceived b).rxBase = s.rxBase := rfl
@[simp] theorem storeReceived_rxN (b : Byte) : (s.storeReceived b).rxN = s.rxN := rfl
@[simp] theorem storeReceived_rxIdx (b : Byte) : (s.storeReceived b).rxIdx = s.rxIdx + 1 := rfl
@[simp] theorem storeReceived_rxLast (b : Byte) : (s.storeReceived b).rxLast = s.now := rfl
@[simp] theorem storeReceived_rxOut (b : Byte) : (s.storeReceived b).rxOut = s.rxOut := rfl
@[simp] theorem storeReceived_rxOutlen (b : Byte) : (s.storeReceived b).rxOutlen = s.rxOutlen := rfl
@[simp] theorem storeReceived_pStage (b : Byte) : (s.storeReceived b).pStage = s.pStage := rfl
@[simp] theorem storeReceived_pIdx (b : Byte) : (s.storeReceived b).pIdx = s.pIdx := rfl
@[simp] theorem storeReceived_pLen (b : Byte) : (s.storeReceived b).pLen = s.pLen := rfl
@[simp] theorem storeReceived_pAcc (b : Byte) : (s.storeReceived b).pAcc = s.pAcc := rfl
@[simp] theorem storeReceived_fb (b : Byte) : (s.storeReceived b).fb = s.fb := rfl
@[simp] theorem storeReceived_resets (b : Byte) : (s.storeReceived b).resets = s.resets := rfl
@[simp] theorem storeReceived_mem (b : Byte) : (s.storeReceived b).mem = s.mem.setByte s.bufferAddr.toNat b := rfl
@[simp] theorem storeReceived_now (b : Byte) : (s.storeReceived b).now = s.now := rfl
@[simp] theorem storeReceived_resp (b : Byte) : (s.storeReceived b).resp = s.resp := rfl
@[simp] theorem storeReceived_reading (b : Byte) : (s.storeReceived b).reading = s.reading := rfl
@[simp] theorem storeReceived_loaded (b : Byte) : (s.storeReceived b).loaded = s.loaded := rfl
@[simp] theorem storeReceived_pending (b : Byte) : (s.storeReceived b).pending = s.pending := rfl

/-! ## takeLenLo -/

@[simp] theorem takeLenLo_cfg (b : Byte) : (s.takeLenLo b).cfg = s.cfg := rfl
@[simp] theorem takeLenLo_armed (b : Byte) : (s.takeLenLo b).armed = s.armed := rfl
@[simp] theorem takeLenLo_rxBase (b : Byte) : (s.takeLenLo b).rxBase = s.rxBase := rfl
@[simp] theorem takeLenLo_rxN (b : Byte) : (s.takeLenLo b).rxN = s.rxN := rfl
@[simp] theorem takeLenLo_rxIdx (b : Byte) : (s.takeLenLo b).rxIdx = s.rxIdx := rfl
@[simp] theorem takeLenLo_rxLast (b : Byte) : (s.takeLenLo b).rxLast = s.rxLast := rfl
@[simp] theorem takeLenLo_rxOut (b : Byte) : (s.takeLenLo b).rxOut = s.rxOut := rfl
@[simp] theorem takeLenLo_rxOutlen (b : Byte) : (s.takeLenLo b).rxOutlen = s.rxOutlen := rfl
@[simp] theorem takeLenLo_pStage (b : Byte) : (s.takeLenLo b).pStage = s.pStage := rfl
@[simp] theorem takeLenLo_pIdx (b : Byte) : (s.takeLenLo b).pIdx = s.pIdx + 1 := rfl
@[simp] theorem takeLenLo_pLen (b : Byte) : (s.takeLenLo b).pLen = be16 (s.pLen.extractLsb 15 8) b := rfl
@[simp] theorem takeLenLo_pAcc (b : Byte) : (s.takeLenLo b).pAcc = addByte s.pAcc b := rfl
@[simp] theorem takeLenLo_fb (b : Byte) : (s.takeLenLo b).fb = s.fb.setByte s.pIdx.toNat b := rfl
@[simp] theorem takeLenLo_resets (b : Byte) : (s.takeLenLo b).resets = s.resets := rfl
@[simp] theorem takeLenLo_mem (b : Byte) : (s.takeLenLo b).mem = s.mem := rfl
@[simp] theorem takeLenLo_now (b : Byte) : (s.takeLenLo b).now = s.now := rfl
@[simp] theorem takeLenLo_resp (b : Byte) : (s.takeLenLo b).resp = s.resp := rfl
@[simp] theorem takeLenLo_reading (b : Byte) : (s.takeLenLo b).reading = s.reading := rfl
@[simp] theorem takeLenLo_loaded (b : Byte) : (s.takeLenLo b).loaded = s.loaded := rfl
@[simp] theorem takeLenLo_pending (b : Byte) : (s.takeLenLo b).pending = s.pending := rfl

/-! ## takeData -/

@[simp] theorem takeData_cfg (b : Byte) : (s.takeData b).cfg = s.cfg := rfl
@[simp] theorem takeData_armed (b : Byte) : (s.takeData b).armed = s.armed := rfl
@[simp] theorem takeData_rxBase (b : Byte) : (s.takeData b).rxBase = s.rxBase := rfl
@[simp] theorem takeData_rxN (b : Byte) : (s.takeData b).rxN = s.rxN := rfl
@[simp] theorem takeData_rxIdx (b : Byte) : (s.takeData b).rxIdx = s.rxIdx := rfl
@[simp] theorem takeData_rxLast (b : Byte) : (s.takeData b).rxLast = s.rxLast := rfl
@[simp] theorem takeData_rxOut (b : Byte) : (s.takeData b).rxOut = s.rxOut := rfl
@[simp] theorem takeData_rxOutlen (b : Byte) : (s.takeData b).rxOutlen = s.rxOutlen := rfl
@[simp] theorem takeData_pStage (b : Byte) : (s.takeData b).pStage = s.pStage := rfl
@[simp] theorem takeData_pIdx (b : Byte) : (s.takeData b).pIdx = s.pIdx + 1 := rfl
@[simp] theorem takeData_pLen (b : Byte) : (s.takeData b).pLen = s.pLen := rfl
@[simp] theorem takeData_pAcc (b : Byte) : (s.takeData b).pAcc = if s.pIdx.toNat < checksumOffset s.pLen then addByte s.pAcc b else s.pAcc := rfl
@[simp] theorem takeData_fb (b : Byte) : (s.takeData b).fb = s.fb.setByte s.pIdx.toNat b := rfl
@[simp] theorem takeData_resets (b : Byte) : (s.takeData b).resets = s.resets := rfl
@[simp] theorem takeData_mem (b : Byte) : (s.takeData b).mem = s.mem := rfl
@[simp] theorem takeData_now (b : Byte) : (s.takeData b).now = s.now := rfl
@[simp] theorem takeData_resp (b : Byte) : (s.takeData b).resp = s.resp := rfl
@[simp] theorem takeData_reading (b : Byte) : (s.takeData b).reading = s.reading := rfl
@[simp] theorem takeData_loaded (b : Byte) : (s.takeData b).loaded = s.loaded := rfl
@[simp] theorem takeData_pending (b : Byte) : (s.takeData b).pending = s.pending := rfl

/-! ## illegalCommand -/

@[simp] theorem illegalCommand_cfg : (s.illegalCommand).cfg = s.cfg := rfl
@[simp] theorem illegalCommand_armed : (s.illegalCommand).armed = s.armed := rfl
@[simp] theorem illegalCommand_rxBase : (s.illegalCommand).rxBase = s.rxBase := rfl
@[simp] theorem illegalCommand_rxN : (s.illegalCommand).rxN = s.rxN := rfl
@[simp] theorem illegalCommand_rxIdx : (s.illegalCommand).rxIdx = s.rxIdx := rfl
@[simp] theorem illegalCommand_rxLast : (s.illegalCommand).rxLast = s.rxLast := rfl
@[simp] theorem illegalCommand_rxOut : (s.illegalCommand).rxOut = s.rxOut := rfl
@[simp] theorem illegalCommand_rxOutlen : (s.illegalCommand).rxOutlen = s.rxOutlen := rfl
@[simp] theorem illegalCommand_pStage : (s.illegalCommand).pStage = s.pStage := rfl
@[simp] theorem illegalCommand_pIdx : (s.illegalCommand).pIdx = s.pIdx := rfl
@[simp] theorem illegalCommand_pLen : (s.illegalCommand).pLen = s.pLen := rfl
@[simp] theorem illegalCommand_pAcc : (s.illegalCommand).pAcc = s.pAcc := rfl
@[simp] theorem illegalCommand_fb : (s.illegalCommand).fb = s.fb := rfl
@[simp] theorem illegalCommand_resets : (s.illegalCommand).resets = s.resets := rfl
@[simp] theorem illegalCommand_mem : (s.illegalCommand).mem = s.mem := rfl
@[simp] theorem illegalCommand_now : (s.illegalCommand).now = s.now := rfl
@[simp] theorem illegalCommand_resp : (s.illegalCommand).resp = some (respWord 0xF 0) := rfl
@[simp] theorem illegalCommand_reading : (s.illegalCommand).reading = none := rfl
@[simp] theorem illegalCommand_loaded : (s.illegalCommand).loaded = s.loaded := rfl
@[simp] theorem illegalCommand_pending : (s.illegalCommand).pending = s.pending := rfl

/-! ## beginEvent -/

@[simp] theorem beginEvent_cfg (rest : List PortEvent) : (s.beginEvent rest).cfg = s.cfg := rfl
@[simp] theorem beginEvent_armed (rest : List PortEvent) : (s.beginEvent rest).armed = s.armed := rfl
@[simp] theorem beginEvent_rxBase (rest : List PortEvent) : (s.beginEvent rest).rxBase = s.rxBase := rfl
@[simp] theorem beginEvent_rxN (rest : List PortEvent) : (s.beginEvent rest).rxN = s.rxN := rfl
@[simp] theorem beginEvent_rxIdx (rest : List PortEvent) : (s.beginEvent rest).rxIdx = s.rxIdx := rfl
@[simp] theorem beginEvent_rxLast (rest : List PortEvent) : (s.beginEvent rest).rxLast = s.rxLast := rfl
@[simp] theorem beginEvent_rxOut (rest : List PortEvent) : (s.beginEvent rest).rxOut = s.rxOut := rfl
@[simp] theorem beginEvent_rxOutlen (rest : List PortEvent) : (s.beginEvent rest).rxOutlen = s.rxOutlen := rfl
@[simp] theorem beginEvent_pStage (rest : List PortEvent) : (s.beginEvent rest).pStage = s.pStage := rfl
@[simp] theorem beginEvent_pIdx (rest : List PortEvent) : (s.beginEvent rest).pIdx = s.pIdx := rfl
@[simp] theorem beginEvent_pLen (rest : List PortEvent) : (s.beginEvent rest).pLen = s.pLen := rfl
@[simp] theorem beginEvent_pAcc (rest : List PortEvent) : (s.beginEvent rest).pAcc = s.pAcc := rfl
@[simp] theorem beginEvent_fb (rest : List PortEvent) : (s.beginEvent rest).fb = s.fb := rfl
@[simp] theorem beginEvent_resets (rest : List PortEvent) : (s.beginEvent rest).resets = s.resets := rfl
@[simp] theorem beginEvent_mem (rest : List PortEvent) : (s.beginEvent rest).mem = s.mem := rfl
@[simp] theorem beginEvent_now (rest : List PortEvent) : (s.beginEvent rest).now = s.now := rfl
@[simp] theorem beginEvent_resp (rest : List PortEvent) : (s.beginEvent rest).resp = none := rfl
@[simp] theorem beginEvent_reading (rest : List PortEvent) : (s.beginEvent rest).reading = none := rfl
@[simp] theorem beginEvent_loaded (rest : List PortEvent) : (s.beginEvent rest).loaded = none := rfl
@[simp] theorem beginEvent_pending (rest : List PortEvent) : (s.beginEvent rest).pending = rest := rfl

/-! ## finishFeed: only the outputs -/

@[simp] theorem finishFeed_cfg (out : FeedOutcome) : (s.finishFeed out).cfg = s.cfg := by cases out <;> rfl
@[simp] theorem finishFeed_armed (out : FeedOutcome) : (s.finishFeed out).armed = s.armed := by cases out <;> rfl
@[simp] theorem finishFeed_rxBase (out : FeedOutcome) : (s.finishFeed out).rxBase = s.rxBase := by cases out <;> rfl
@[simp] theorem finishFeed_rxN (out : FeedOutcome) : (s.finishFeed out).rxN = s.rxN := by cases out <;> rfl
@[simp] theorem finishFeed_rxIdx (out : FeedOutcome) : (s.finishFeed out).rxIdx = s.rxIdx := by cases out <;> rfl
@[simp] theorem finishFeed_rxLast (out : FeedOutcome) : (s.finishFeed out).rxLast = s.rxLast := by cases out <;> rfl
@[simp] theorem finishFeed_rxOut (out : FeedOutcome) : (s.finishFeed out).rxOut = s.rxOut := by cases out <;> rfl
@[simp] theorem finishFeed_rxOutlen (out : FeedOutcome) : (s.finishFeed out).rxOutlen = s.rxOutlen := by cases out <;> rfl
@[simp] theorem finishFeed_pStage (out : FeedOutcome) : (s.finishFeed out).pStage = s.pStage := by cases out <;> rfl
@[simp] theorem finishFeed_pIdx (out : FeedOutcome) : (s.finishFeed out).pIdx = s.pIdx := by cases out <;> rfl
@[simp] theorem finishFeed_pLen (out : FeedOutcome) : (s.finishFeed out).pLen = s.pLen := by cases out <;> rfl
@[simp] theorem finishFeed_pAcc (out : FeedOutcome) : (s.finishFeed out).pAcc = s.pAcc := by cases out <;> rfl
@[simp] theorem finishFeed_fb (out : FeedOutcome) : (s.finishFeed out).fb = s.fb := by cases out <;> rfl
@[simp] theorem finishFeed_resets (out : FeedOutcome) : (s.finishFeed out).resets = s.resets := by cases out <;> rfl
@[simp] theorem finishFeed_mem (out : FeedOutcome) : (s.finishFeed out).mem = s.mem := by cases out <;> rfl
@[simp] theorem finishFeed_now (out : FeedOutcome) : (s.finishFeed out).now = s.now := by cases out <;> rfl
@[simp] theorem finishFeed_loaded (out : FeedOutcome) : (s.finishFeed out).loaded = s.loaded := by cases out <;> rfl
@[simp] theorem finishFeed_pending (out : FeedOutcome) : (s.finishFeed out).pending = s.pending := by cases out <;> rfl
@[simp] theorem finishFeed_resp (out : FeedOutcome) : (s.finishFeed out).resp = some (respWord out.code 0) := by
  cases out <;> rfl

/-- The reading of an outcome, if it carries one. -/
def readingOf : FeedOutcome → Option Reading
  | .ok r => some r
  | .pending | .invalidSync | .invalidLength | .checksumError | .bufferOverflow => none

@[simp] theorem finishFeed_reading (out : FeedOutcome) : (s.finishFeed out).reading = readingOf out := by
  cases out <;> rfl

end Sys2Proof.Machine
end

