-- ==== Sys2Proof/Laws/Ops.lean ====
section
/-! SUPPORT. One lemma for each shared operation that says what it can do. -/

namespace Sys2Proof.Machine

/-! ## Reading host memory and the frame buffer -/

/-- What a host load sees depends on host memory alone. -/
theorem hostByte_congr {s t : State} (h : t.mem = s.mem) (a : Addr) : t.hostByte a = s.hostByte a := by
  simp [State.hostByte, h]

/-- What FB holds depends on its written bytes and the number of resets alone. -/
theorem fbByte_congr {s t : State} (h : t.fb = s.fb) (hr : t.resets = s.resets) (i : Nat) :
    t.fbByte i = s.fbByte i := by
  simp [State.fbByte, h, hr]

theorem hostByte_memWrite (s : State) (a c : Addr) (b : Byte) :
    (s.memWrite a b).hostByte c = if c = a then b else s.hostByte c := by
  simp only [State.hostByte, memWrite_mem, byteAt_setByte]
  by_cases h : c = a
  · simp [h]
  · have : ¬ c.toNat = a.toNat := fun h' => h (BitVec.eq_of_toNat_eq h')
    simp [h, this]

/-- A state whose host memory is that of `s` with one byte stored reads as `s` but for that byte. -/
theorem hostByte_of_setByte {s t : State} {a : Addr} {b : Byte} (h : t.mem = s.mem.setByte a.toNat b) (c : Addr) :
    t.hostByte c = if c = a then b else s.hostByte c := by
  rw [← hostByte_memWrite]
  exact hostByte_congr h c

theorem fbByte_fbWrite (s : State) (i j : Nat) (b : Byte) :
    (s.fbWrite i b).fbByte j = if j = i then b else s.fbByte j := by
  simp only [State.fbByte, fbWrite_fb, fbWrite_resets, byteAt_setByte]
  split_ifs <;> rfl

/-- A state whose frame buffer is that of `s` with one byte stored reads as `s` but for that byte. -/
theorem fbByte_of_setByte {s t : State} {i : Nat} {b : Byte} (h : t.fb = s.fb.setByte i b) (hr : t.resets = s.resets)
    (j : Nat) : t.fbByte j = if j = i then b else s.fbByte j := by
  rw [← fbByte_fbWrite]
  exact fbByte_congr h (by rw [hr, fbWrite_resets]) j

/-! ## Outputs -/

theorem respWord_toNat (c : BitVec 4) (v : Half) : (respWord c v).toNat = v.toNat * 2 ^ 16 + c.toNat := by
  rw [respWord, append_toNat 28 4, append_toNat 16 12]
  simp only [BitVec.toNat_ofNat]
  omega

/-- Two responses are the same word only if code and value agree. -/
theorem respWord_inj {c c' : BitVec 4} {v v' : Half} : respWord c v = respWord c' v' ↔ c = c' ∧ v = v' := by
  constructor
  · intro h
    have h' := congrArg BitVec.toNat h
    rw [respWord_toNat, respWord_toNat] at h'
    have := c.isLt; have := c'.isLt; have := v.isLt; have := v'.isLt
    exact ⟨BitVec.eq_of_toNat_eq (by omega), BitVec.eq_of_toNat_eq (by omega)⟩
  · rintro ⟨rfl, rfl⟩; rfl

/-! ## Reset -/

@[simp] theorem applyReset_eq (s : State) : s.applyReset =
    { State.resetWith s.cfg with mem := s.mem, resets := s.resets + 1, now := s.now, pending := s.pending } := rfl

end Sys2Proof.Machine
end

