-- ==== Sys2Proof/Laws/Exec.lean ====
section
/-! SUPPORT. What each meaning and each event can do, said once: one inversion lemma for each. -/

namespace Sys2Proof.Machine

/-! ## The engine's commands -/

theorem execArm_cases (base : Addr) (cap : Half) (s : State) :
    (s.armed = true ∧ execArm base cap s = .next (s.respond 0x1 0))
    ∨ (s.armed = false ∧ invalidDescriptor s.cfg base cap = true ∧ execArm base cap s = .next (s.respond 0x2 0))
    ∨ (s.armed = false ∧ invalidDescriptor s.cfg base cap = false
      ∧ execArm base cap s = .next ((s.armWith base cap).respond 0x0 0)) := by
  unfold execArm
  cases ha : s.armed <;> cases hd : invalidDescriptor s.cfg base cap <;> simp

theorem execByte_cases (b : Byte) (s : State) :
    (s.armed = false ∧ execByte b s = .next (s.respond 0x0 0))
    ∨ (s.armed = true ∧ s.rxIdx + 1 = s.rxN
      ∧ execByte b s = .next (((s.storeReceived b).completeWith s.rxN).respond 0x0 0))
    ∨ (s.armed = true ∧ s.rxIdx + 1 ≠ s.rxN ∧ execByte b s = .next ((s.storeReceived b).respond 0x0 0)) := by
  unfold execByte State.bufferFull
  cases ha : s.armed
  · simp
  · by_cases hf : s.rxIdx + 1 = s.rxN
    · exact .inr (.inl ⟨rfl, hf, if_pos (decide_eq_true hf)⟩)
    · have hd : decide ((s.storeReceived b).rxIdx = (s.storeReceived b).rxN) = false := decide_eq_false hf
      exact .inr (.inr ⟨rfl, hf, by simp only [↓reduceIte, hd, Bool.false_eq_true]⟩)

/-- TICK's condition as the rule writes it (40_reception_engine.md R103). -/
theorem timesOut_iff (s : State) : s.timesOut = true ↔
    s.armed = true ∧ 0 < s.rxIdx.toNat ∧ s.rxLast + s.cfg.idleTimeout ≤ s.now := by
  simp [State.timesOut, State.idleExpired, and_assoc]

theorem execTick_cases (s : State) :
    (s.timesOut = true ∧ execTick s = .next ((s.completeWith s.rxIdx).respond 0x0 0))
    ∨ (s.timesOut = false ∧ execTick s = .next (s.respond 0x0 0)) := by
  unfold execTick
  cases h : s.timesOut <;> simp

theorem execStatus_cases (s : State) :
    (s.rxOut = true ∧ execStatus s = .next (s.respond 0x1 s.rxOutlen))
    ∨ (s.rxOut = false ∧ execStatus s = .next (s.respond 0x0 0)) := by
  unfold execStatus
  cases h : s.rxOut <;> simp

/-- A descriptor is valid exactly as R101 says. -/
theorem invalidDescriptor_false_iff (cfg : Config) (base : Addr) (cap : Half) :
    invalidDescriptor cfg base cap = false ↔ base ≠ 0 ∧ cap ≠ 0 ∧ cap.toNat ≤ cfg.maxXfer := by
  simp [invalidDescriptor, and_assoc]

/-! ## The tests the rules make, as propositions -/

theorem fitsPort_iff (cfg : Config) (t : Nat) : fitsPort cfg t = true ↔ t < 2 ^ cfg.tsW := by
  simp [fitsPort]

/-- The engine owns an address exactly as 20_memory.md R60 says. -/
theorem ownsByte_iff (s : State) (a : Addr) :
    s.ownsByte a = true ↔ s.armed = true ∧ (a - s.rxBase).toNat < s.rxN.toNat := by
  rw [State.ownsByte, Bool.and_eq_true, decide_eq_true_iff]

/-- The length check of 41_frame_parser.md R136. -/
theorem badLength_iff (cfg : Config) (len : Half) :
    badLength cfg len = true ↔ len.toNat < 2 ∨ cfg.frameCap < 4 + len.toNat := by
  rw [badLength, Bool.or_eq_true, decide_eq_true_iff, decide_eq_true_iff]

/-- ReadData's end of the data bytes (R137 step 4). -/
theorem dataComplete_iff (s : State) : s.dataComplete = true ↔
    s.pIdx.toNat = checksumOffset s.pLen
      ∨ (s.cfg.zeroData = .oneByteData ∧ checksumOffset s.pLen ≤ s.pIdx.toNat) := by
  rw [State.dataComplete, Bool.or_eq_true, Bool.and_eq_true, decide_eq_true_iff, decide_eq_true_iff,
    decide_eq_true_iff]

/-! ## The parser -/

/-- The overflow guard's test (41_frame_parser.md R132). -/
theorem overflows_iff (s : State) : s.overflows = true ↔
    s.pStage ≠ .awaitSync1 ∧ s.cfg.frameCap ≤ s.pIdx.toNat := by
  simp [State.overflows]

theorem feedStep_of_guard {s : State} (b : Byte) (h : s.overflows = true) :
    feedStep b s = (s.parserReset, .bufferOverflow) := by
  simp [feedStep, h]

/-- Below the capacity, or in AwaitSync1, FEED runs the stage's rule (R130). -/
theorem feedStep_of_no_guard {s : State} (b : Byte) (h : s.pStage = .awaitSync1 ∨ s.pIdx.toNat < s.cfg.frameCap) :
    feedStep b s = stageStep b s := by
  have : s.overflows = false := by
    rw [Bool.eq_false_iff, Ne, overflows_iff]
    rcases h with h | h
    · simp [h]
    · omega
  simp [feedStep, this]

/-- No stage rule touches a field outside the parser. -/
structure ParserOnly (s t : State) : Prop where
  cfg : t.cfg = s.cfg
  armed : t.armed = s.armed
  rxBase : t.rxBase = s.rxBase
  rxN : t.rxN = s.rxN
  rxIdx : t.rxIdx = s.rxIdx
  rxLast : t.rxLast = s.rxLast
  rxOut : t.rxOut = s.rxOut
  rxOutlen : t.rxOutlen = s.rxOutlen
  resets : t.resets = s.resets
  mem : t.mem = s.mem
  now : t.now = s.now
  loaded : t.loaded = s.loaded
  pending : t.pending = s.pending

theorem feedStep_parserOnly (b : Byte) (s : State) : ParserOnly s (feedStep b s).1 := by
  unfold feedStep
  split
  · constructor <;> rfl
  · unfold stageStep
    split
    · unfold stageAwaitSync1; split <;> constructor <;> rfl
    · unfold stageAwaitSync2; split
      · constructor <;> rfl
      · split
        · unfold stageAwaitSync1; split <;> constructor <;> rfl
        · constructor <;> rfl
    · constructor <;> rfl
    · unfold stageReadLenLo; simp only; split
      · constructor <;> rfl
      · split <;> constructor <;> rfl
    · unfold stageReadData; simp only; split <;> constructor <;> rfl
    · constructor <;> rfl
    · unfold stageReadChecksumLo; simp only; split
      · split <;> constructor <;> rfl
      · constructor <;> rfl

/-! ## Events -/

/-- With no event waiting the machine stands still (60_exceptions.md R196; log 19). -/
theorem step_idle {s : State} (h : s.pending = []) : step s = .next s := by
  simp [step, nextEvent, h]

/-- With an event waiting, a step performs it. -/
theorem step_event {s : State} {e : PortEvent} {rest : List PortEvent} (h : s.pending = e :: rest) :
    step s = performEvent e (s.beginEvent rest) := by
  simp [step, nextEvent, h]

theorem presentWord_cases (w : CmdWord) (s : State) :
    (∃ i, decode w = .legal i ∧ samplesNow i = true ∧ ¬ s.now < 2 ^ s.cfg.tsW
      ∧ presentWord w s = .refused .timestampBeyondPort)
    ∨ (∃ i, decode w = .legal i ∧ (samplesNow i = true → s.now < 2 ^ s.cfg.tsW) ∧ presentWord w s = exec i s)
    ∨ (∃ why, decode w = .illegal why ∧ presentWord w s = .next s.illegalCommand) := by
  unfold presentWord
  cases hd : decode w with
  | illegal why => exact .inr (.inr ⟨why, rfl, rfl⟩)
  | legal i =>
    cases hs : samplesNow i
    · exact .inr (.inl ⟨i, rfl, by simp [hs], by simp [hs]⟩)
    · by_cases hf : s.now < 2 ^ s.cfg.tsW
      · exact .inr (.inl ⟨i, rfl, fun _ => hf, by simp [hs, (fitsPort_iff _ _).2 hf]⟩)
      · have hf' : fitsPort s.cfg s.now = false := by rwa [Bool.eq_false_iff, Ne, fitsPort_iff]
        exact .inl ⟨i, rfl, hs, hf, by simp [hs, hf']⟩

/-! ## Every command -/

theorem exec_feed (b : Byte) (s : State) :
    exec (.feed b) s = .next ((feedStep b s).1.finishFeed (feedStep b s).2) := rfl

/-- FEED touches the parser and the outputs alone (40_reception_engine.md R108, 41_frame_parser.md R146). -/
theorem exec_feed_parserOnly {b : Byte} {s t : State} (h : exec (.feed b) s = .next t) : ParserOnly s t := by
  have hp := feedStep_parserOnly b s
  rw [exec_feed] at h
  cases h
  constructor <;> simp [hp.cfg, hp.armed, hp.rxBase, hp.rxN, hp.rxIdx, hp.rxLast, hp.rxOut, hp.rxOutlen, hp.resets,
    hp.mem, hp.now, hp.loaded, hp.pending]

/-- What no command writes: the parameters, the inputs, the order, the count of resets. -/
theorem exec_keeps {i : Instr} {s t : State} (h : exec i s = .next t) :
    t.pending = s.pending ∧ t.loaded = s.loaded ∧ t.cfg = s.cfg ∧ t.now = s.now ∧ t.resets = s.resets := by
  cases i with
  | arm base cap =>
    rcases execArm_cases base cap s with ⟨_, e⟩ | ⟨_, _, e⟩ | ⟨_, _, e⟩ <;>
      (rw [exec, e] at h; cases h; exact ⟨rfl, rfl, rfl, rfl, rfl⟩)
  | byte b =>
    rcases execByte_cases b s with ⟨_, e⟩ | ⟨_, _, e⟩ | ⟨_, _, e⟩ <;>
      (rw [exec, e] at h; cases h; exact ⟨rfl, rfl, rfl, rfl, rfl⟩)
  | tick =>
    rcases execTick_cases s with ⟨_, e⟩ | ⟨_, e⟩ <;> (rw [exec, e] at h; cases h; exact ⟨rfl, rfl, rfl, rfl, rfl⟩)
  | status =>
    rcases execStatus_cases s with ⟨_, e⟩ | ⟨_, e⟩ <;> (rw [exec, e] at h; cases h; exact ⟨rfl, rfl, rfl, rfl, rfl⟩)
  | feed b =>
    have f := exec_feed_parserOnly h
    exact ⟨f.pending, f.loaded, f.cfg, f.now, f.resets⟩

/-- The parameters' legal ranges (00_scope.md R8). -/
theorem legal_iff (c : Config) : c.legal = true ↔
    1 ≤ c.idleTimeout ∧ 32 ≤ c.frameCap ∧ c.frameCap ≤ 65539 ∧ 1 ≤ c.maxXfer ∧ c.maxXfer ≤ 65535 ∧ 16 ≤ c.tsW := by
  simp [Config.legal, and_assoc]

end Sys2Proof.Machine
end

