-- ==== Sys2Proof/Laws/Parser.lean ====
section
/-! SUPPORT. The parser's stages one by one, what a stored byte changes in the frame buffer, and that a FEED neither reads
nor writes the inputs and outputs. -/

namespace Sys2Proof.Machine

/-! ## The response of each outcome, as a word (30_encoding.md R80, R81) -/

theorem finishFeed_pending_eq (s : State) :
    s.finishFeed .pending = { s with resp := some 0x00000000#32, reading := none } := by
  rw [show (0x00000000#32 : RespWord) = respWord 0x0 0 by decide]; rfl

theorem finishFeed_ok_eq (s : State) (r : Reading) :
    s.finishFeed (.ok r) = { s with resp := some 0x00000001#32, reading := some r } := by
  rw [show (0x00000001#32 : RespWord) = respWord 0x1 0 by decide]; rfl

theorem finishFeed_invalidSync_eq (s : State) :
    s.finishFeed .invalidSync = { s with resp := some 0x00000002#32, reading := none } := by
  rw [show (0x00000002#32 : RespWord) = respWord 0x2 0 by decide]; rfl

theorem finishFeed_invalidLength_eq (s : State) :
    s.finishFeed .invalidLength = { s with resp := some 0x00000003#32, reading := none } := by
  rw [show (0x00000003#32 : RespWord) = respWord 0x3 0 by decide]; rfl

theorem finishFeed_checksumError_eq (s : State) :
    s.finishFeed .checksumError = { s with resp := some 0x00000004#32, reading := none } := by
  rw [show (0x00000004#32 : RespWord) = respWord 0x4 0 by decide]; rfl

theorem finishFeed_bufferOverflow_eq (s : State) :
    s.finishFeed .bufferOverflow = { s with resp := some 0x00000005#32, reading := none } := by
  rw [show (0x00000005#32 : RespWord) = respWord 0x5 0 by decide]; rfl

/-! ## The stage rule that runs (41_frame_parser.md R130) -/

theorem stageStep_awaitSync1 {b : Byte} {s : State} (h : s.pStage = .awaitSync1) :
    stageStep b s = stageAwaitSync1 b s := by simp [stageStep, h]

theorem stageStep_awaitSync2 {b : Byte} {s : State} (h : s.pStage = .awaitSync2) :
    stageStep b s = stageAwaitSync2 b s := by simp [stageStep, h]

theorem stageStep_readLenHi {b : Byte} {s : State} (h : s.pStage = .readLenHi) :
    stageStep b s = stageReadLenHi b s := by simp [stageStep, h]

theorem stageStep_readLenLo {b : Byte} {s : State} (h : s.pStage = .readLenLo) :
    stageStep b s = stageReadLenLo b s := by simp [stageStep, h]

theorem stageStep_readData {b : Byte} {s : State} (h : s.pStage = .readData) :
    stageStep b s = stageReadData b s := by simp [stageStep, h]

theorem stageStep_readChecksumHi {b : Byte} {s : State} (h : s.pStage = .readChecksumHi) :
    stageStep b s = stageReadChecksumHi b s := by simp [stageStep, h]

theorem stageStep_readChecksumLo {b : Byte} {s : State} (h : s.pStage = .readChecksumLo) :
    stageStep b s = stageReadChecksumLo b s := by simp [stageStep, h]

/-- Below the capacity, or in AwaitSync1, a FEED is its stage's rule and the response of the outcome. -/
theorem exec_feed_of_no_guard (b : Byte) (s : State) (h : s.pStage = .awaitSync1 ∨ s.pIdx.toNat < s.cfg.frameCap) :
    exec (.feed b) s = .next ((stageStep b s).1.finishFeed (stageStep b s).2) := by
  rw [exec_feed, feedStep_of_no_guard b h]

/-! ## The write index and the frame buffer -/

/-- Below a legal capacity the 17-bit index does not wrap (10_state.md R32). -/
theorem pIdx_succ {s : State} (hc : s.cfg.frameCap ≤ 65539) (h : s.pIdx.toNat < s.cfg.frameCap) :
    (s.pIdx + 1).toNat = s.pIdx.toNat + 1 := by
  rw [BitVec.toNat_add, Nat.mod_eq_of_lt (by simp; omega)]
  rfl

/-- The index after a store into an armed buffer does not wrap (40_reception_engine.md R102). -/
theorem rxIdx_succ {s : State} (h : s.rxIdx.toNat < s.rxN.toNat) : (s.rxIdx + 1).toNat = s.rxIdx.toNat + 1 := by
  have := s.rxN.isLt
  rw [BitVec.toNat_add, Nat.mod_eq_of_lt (by simp; omega)]
  rfl

/-- The sum of the first bytes depends on those bytes alone. -/
theorem fbSum_congr {s t : State} (n : Nat) (h : ∀ j, j < n → t.fbByte j = s.fbByte j) : t.fbSum n = s.fbSum n := by
  induction n with
  | zero => rfl
  | succ n ih => rw [State.fbSum, State.fbSum, ih fun j hj => h j (by omega), h n (by omega)]

/-- The sum over the frame buffer is the sum of its bytes as a list. -/
theorem byteSum_fb (s : State) (n : Nat) : byteSum ((List.range n).map s.fbByte) = s.fbSum n := by
  induction n with
  | zero => rfl
  | succ n ih =>
    rw [byteSum] at ih
    rw [List.range_succ, List.map_append, byteSum, List.foldl_append, ih]
    rfl

theorem byteSum_append (a b : List Byte) : byteSum (a ++ b) = b.foldl addByte (byteSum a) := by
  simp [byteSum, List.foldl_append]

/-- The state `t` is `s` with `b` stored at the write index. -/
structure Pushed (s t : State) (b : Byte) : Prop where
  fb : t.fb = s.fb.setByte s.pIdx.toNat b
  resets : t.resets = s.resets

theorem Pushed.below {s t : State} {b : Byte} (h : Pushed s t b) {j : Nat} (hj : j < s.pIdx.toNat) :
    t.fbByte j = s.fbByte j := by
  rw [fbByte_of_setByte h.fb h.resets, if_neg (by omega)]

theorem Pushed.stored {s t : State} {b : Byte} (h : Pushed s t b) : t.fbByte s.pIdx.toNat = b := by
  rw [fbByte_of_setByte h.fb h.resets, if_pos rfl]

theorem Pushed.sum {s t : State} {b : Byte} (h : Pushed s t b) {n : Nat} (hn : n ≤ s.pIdx.toNat) :
    t.fbSum n = s.fbSum n :=
  fbSum_congr n fun _ hj => h.below (by omega)

theorem Pushed.sum_succ {s t : State} {b : Byte} (h : Pushed s t b) :
    t.fbSum (s.pIdx.toNat + 1) = addByte (s.fbSum s.pIdx.toNat) b := by
  rw [State.fbSum, h.sum le_rfl, h.stored]

/-! ## The inputs and outputs beside a FEED -/

theorem finishFeed_fields (s : State) (out : FeedOutcome) (p : List PortEvent) (r : Option RespWord)
    (q : Option Reading) (l : Option Byte) (n : Nat) :
    ({ s with pending := p, resp := r, reading := q, loaded := l, now := n } : State).finishFeed out
      = { s.finishFeed out with pending := p, loaded := l, now := n } := by
  cases out <;> rfl

/-- A FEED neither reads nor writes the order, the outputs and `now` (30_encoding.md R76, R77). -/
theorem feedStep_fields (b : Byte) (s : State) (p : List PortEvent) (r : Option RespWord) (q : Option Reading)
    (l : Option Byte) (n : Nat) :
    feedStep b { s with pending := p, resp := r, reading := q, loaded := l, now := n }
      = ({ (feedStep b s).1 with pending := p, resp := r, reading := q, loaded := l, now := n }, (feedStep b s).2) := by
  unfold feedStep
  rw [show ({ s with pending := p, resp := r, reading := q, loaded := l, now := n } : State).overflows = s.overflows
    from rfl]
  split
  · rfl
  · unfold stageStep
    simp only
    split
    · unfold stageAwaitSync1; split <;> rfl
    · unfold stageAwaitSync2; split
      · rfl
      · split
        · unfold stageAwaitSync1; split <;> rfl
        · rfl
    · rfl
    · unfold stageReadLenLo
      simp only [show ({ s with pending := p, resp := r, reading := q, loaded := l, now := n } : State).takeLenLo b
        = { s.takeLenLo b with pending := p, resp := r, reading := q, loaded := l, now := n } from rfl]
      split
      · rfl
      · split <;> rfl
    · unfold stageReadData
      simp only [show ({ s with pending := p, resp := r, reading := q, loaded := l, now := n } : State).takeData b
          = { s.takeData b with pending := p, resp := r, reading := q, loaded := l, now := n } from rfl,
        show ({ s.takeData b with pending := p, resp := r, reading := q, loaded := l, now := n } : State).dataComplete
          = (s.takeData b).dataComplete from rfl]
      split <;> rfl
    · rfl
    · unfold stageReadChecksumLo
      simp only [show ({ s with pending := p, resp := r, reading := q, loaded := l, now := n } : State).fbPush b
          = { s.fbPush b with pending := p, resp := r, reading := q, loaded := l, now := n } from rfl,
        show ({ s.fbPush b with pending := p, resp := r, reading := q, loaded := l, now := n } : State).receivedChecksum
          = (s.fbPush b).receivedChecksum from rfl,
        show ({ s.fbPush b with pending := p, resp := r, reading := q, loaded := l, now := n } : State).decodeReading
          = (s.fbPush b).decodeReading from rfl]
      split
      · split <;> rfl
      · rfl

/-! ## FEED of a list of bytes -/

theorem feedAll_cons {b : Byte} {s t : State} (bs : List Byte) (h : exec (.feed b) s = .next t) :
    feedAll (b :: bs) s = (t.output :: (feedAll bs t).1, (feedAll bs t).2) := by
  have h' : exec (.feed b) { s with now := s.now } = .next t := h
  simp only [feedAll, List.map_cons, performAll, h', (exec_feed_parserOnly h).now]

theorem feedAll_append (a : List Byte) {b : List Byte} {o : List Output} {s t : State}
    (h : feedAll a s = (o, .next t)) : feedAll (a ++ b) s = (o ++ (feedAll b t).1, (feedAll b t).2) := by
  induction a generalizing o s with
  | nil =>
    rw [show feedAll [] s = ([], .next s) from rfl] at h
    cases h
    rfl
  | cons x rest ih =>
    rw [feedAll_cons rest (exec_feed x s)] at h
    have hn : (feedAll rest ((feedStep x s).1.finishFeed (feedStep x s).2)).2 = .next t := congrArg Prod.snd h
    have h2 := ih (o := (feedAll rest ((feedStep x s).1.finishFeed (feedStep x s).2)).1) (Prod.ext rfl hn)
    have ho : _ :: _ = o := congrArg Prod.fst h
    rw [List.cons_append, feedAll_cons _ (exec_feed x s), h2, ← ho]
    rfl

end Sys2Proof.Machine
end

