-- ==== Sys2Proof/Laws/PerInstr.lean ====
section
/-! SUPPORT. One statement about the syntax and encoding of every command, a lemma for each constructor. -/

/-- A command's `op` of the table of 30_encoding.md R78. -/
def Sys2Proof.Laws.OpField.op : Sys2Proof.Instr → Nat
  | .arm _ _ => 1
  | .byte _ => 2
  | .tick => 3
  | .status => 4
  | .feed _ => 5

/-- The command is well-formed, its word carries its `op` in bits 63 to 60, and the bits its format marks 0 are 0
(30_encoding.md R71, R78): 59 to 48 for format A, 59 to 8 for the others. -/
def Sys2Proof.Laws.OpField.Statement (i : Sys2Proof.Instr) : Prop :=
  i.wellFormed = true
    ∧ (Sys2Proof.encode i).toNat / 2 ^ 60 = Sys2Proof.Laws.OpField.op i
    ∧ match i with
      | .arm _ _ => (Sys2Proof.encode i).toNat / 2 ^ 48 % 2 ^ 12 = 0
      | .byte _ => (Sys2Proof.encode i).toNat / 2 ^ 8 % 2 ^ 52 = 0
      | .tick => (Sys2Proof.encode i).toNat % 2 ^ 60 = 0
      | .status => (Sys2Proof.encode i).toNat % 2 ^ 60 = 0
      | .feed _ => (Sys2Proof.encode i).toNat / 2 ^ 8 % 2 ^ 52 = 0

theorem Sys2Proof.Laws.OpField.arm (base : Sys2Proof.Addr) (cap : Sys2Proof.Half) :
    Sys2Proof.Laws.OpField.Statement (.arm base cap) := by
  have := base.isLt
  have := cap.isLt
  have h := Sys2Proof.encode_toNat (.arm base cap)
  simp only at h
  refine ⟨rfl, ?_, ?_⟩
  · show _ = 1; rw [h]; omega
  · show _ = 0; rw [h]; omega

theorem Sys2Proof.Laws.OpField.byte (b : Sys2Proof.Byte) : Sys2Proof.Laws.OpField.Statement (.byte b) := by
  have := b.isLt
  have h := Sys2Proof.encode_toNat (.byte b)
  simp only at h
  refine ⟨rfl, ?_, ?_⟩
  · show _ = 2; rw [h]; omega
  · show _ = 0; rw [h]; omega

theorem Sys2Proof.Laws.OpField.tick : Sys2Proof.Laws.OpField.Statement .tick := ⟨rfl, by decide, by decide⟩

theorem Sys2Proof.Laws.OpField.status : Sys2Proof.Laws.OpField.Statement .status := ⟨rfl, by decide, by decide⟩

theorem Sys2Proof.Laws.OpField.feed (b : Sys2Proof.Byte) : Sys2Proof.Laws.OpField.Statement (.feed b) := by
  have := b.isLt
  have h := Sys2Proof.encode_toNat (.feed b)
  simp only at h
  refine ⟨rfl, ?_, ?_⟩
  · show _ = 5; rw [h]; omega
  · show _ = 0; rw [h]; omega
end

