-- ==== Sys2Proof/Tests/Slice0.lean ====
section
/-! SUPPORT. Tests of the model against values worked out from the rules (the vectors of 95_test_vectors.md by their
number), and a witness for the hypotheses of each obligation. -/

namespace Sys2Proof.Tests

open Sys2Proof.Machine
open Host (Outcome)

/-! ## Helpers -/

/-- A field of the next state. -/
def after {α : Type} (o : Outcome State Fault Refusal) (f : State → α) : Option α :=
  match o with
  | .next t => some (f t)
  | .fault _ => none
  | .refused _ => none

/-- Reset with a request armed at `base`. -/
def armedAt (base : Addr) (n idx : Half) (last : Nat) : State :=
  { State.reset with armed := true, rxBase := base, rxN := n, rxIdx := idx, rxLast := last }

/-- Reset with the parser in a stage. -/
def inStage (st : Stage) (idx : BitVec 17) (len acc : Half) : State :=
  { State.reset with pStage := st, pIdx := idx, pLen := len, pAcc := acc }

/-- The frame buffer with these bytes at its first offsets. -/
def fbOf (bs : List Byte) : Memory := (List.range bs.length).zip bs

/-- The parser in a stage with the frame's first bytes held. -/
def holding (st : Stage) (bs : List Byte) (len acc : Half) : State :=
  { inStage st (BitVec.ofNat 17 bs.length) len acc with fb := fbOf bs }

/-- A state with events waiting. -/
def waiting (s : State) (es : List PortEvent) : State := { s with pending := es }

/-- 26 data bytes, all zero: with LEN = 28 the frame fills FRAME_CAP = 32 exactly. -/
def zeros : List Byte := List.replicate 26 0

/-- A LEN = 28 frame with those data bytes, up to its checksum's high byte: its sum is 0xAB (30_encoding.md R86). -/
def heldFrame : State := holding .readChecksumLo ([0x42, 0x4D, 0x00, 0x1C] ++ zeros ++ [0x00]) 28 0x00AB

/-- A configuration of R8 with another LEN = 2 policy. -/
def withPolicy (p : ZeroDataPolicy) (s : State) : State := { s with cfg := { s.cfg with zeroData := p } }

/-! ## WellFormed: each check refuses an ill-formed term (00_scope.md R8) -/

theorem test_reference_is_legal : Config.reference.legal = true ∧ Config.reference.tickLegal = true := by decide
theorem test_idle_timeout_zero_refused : Config.legal { Config.reference with idleTimeout := 0 } = false := by decide
theorem test_frame_cap_31_refused : Config.legal { Config.reference with frameCap := 31 } = false := by decide
theorem test_frame_cap_65540_refused : Config.legal { Config.reference with frameCap := 65540 } = false := by decide
theorem test_max_xfer_zero_refused : Config.legal { Config.reference with maxXfer := 0 } = false := by decide
theorem test_max_xfer_65536_refused : Config.legal { Config.reference with maxXfer := 65536 } = false := by decide
theorem test_ts_w_15_refused : Config.legal { Config.reference with tsW := 15 } = false := by decide
theorem test_tick_interval_zero_refused :
    Config.tickLegal { Config.reference with tickMaxInterval := 0 } = false := by decide
theorem test_tick_interval_at_timeout_refused :
    Config.tickLegal { Config.reference with tickMaxInterval := 5 } = false := by decide
/-- A command's fields have exactly their formats' widths, so no term is ill-formed: the zero base and capacity of V16
and V17 are well-formed ARMs that the engine answers. -/
theorem test_arm_null_is_well_formed : Instr.wellFormed (.arm 0 0) = true := by decide
/-- Rising addresses are checked: a repeat, a fall and an address beyond the size are refused. -/
theorem test_memory_form_refused :
    Memory.wf 8 [(1, 0), (1, 0)] = false ∧ Memory.wf 8 [(2, 0), (1, 0)] = false ∧ Memory.wf 8 [(8, 0)] = false
      ∧ Memory.wf 8 [(0, 0), (7, 0)] = true := by decide

/-! ## Decode: words written out from R71 to R76, V1 to V14 -/

theorem test_decode_v1_arm : decode 0x1000004000001000#64 = .legal (.arm 0x1000#32 64#16) := by decide
theorem test_decode_v2_arm_bit_48 : decode 0x1001004000001000#64 = .illegal .reservedBits := by decide
theorem test_decode_v3_arm_bit_59 : decode 0x1800004000001000#64 = .illegal .reservedBits := by decide
theorem test_decode_v4_byte : decode 0x20000000000000AB#64 = .legal (.byte 0xAB#8) := by decide
theorem test_decode_v5_byte_bit_8 : decode 0x20000000000001AB#64 = .illegal .reservedBits := by decide
theorem test_decode_v6_tick : decode 0x3000000000000000#64 = .legal .tick := by decide
theorem test_decode_v7_tick_bit_0 : decode 0x3000000000000001#64 = .illegal .reservedBits := by decide
theorem test_decode_v8_status : decode 0x4000000000000000#64 = .legal .status := by decide
theorem test_decode_v9_status_bit_59 : decode 0x4800000000000000#64 = .illegal .reservedBits := by decide
theorem test_decode_v10_feed : decode 0x5000000000000042#64 = .legal (.feed 0x42#8) := by decide
theorem test_decode_v11_feed_bit_32 : decode 0x5000000100000042#64 = .illegal .reservedBits := by decide
theorem test_decode_v12_op_0 : decode 0x0000000000000000#64 = .illegal .reservedOp := by decide
theorem test_decode_v13_op_6 : decode 0x6000000000000000#64 = .illegal .reservedOp := by decide
theorem test_decode_v14_op_f : decode 0xFFFFFFFFFFFFFFFF#64 = .illegal .reservedOp := by decide
/-- The encodings of R90, field by field. -/
theorem test_encode_arm : encode (.arm 0xFFFFFFFF#32 1#16) = 0x10000001FFFFFFFF#64 := by decide
theorem test_encode_feed : encode (.feed 0xFF#8) = 0x50000000000000FF#64 := by decide
theorem test_table_word : decodeTableWord 64 0x20000000000000AB = some (.byte 0xAB#8) := by decide
theorem test_table_word_illegal : decodeTableWord 64 0x6000000000000000 = none := by decide

/-! ## One step: an instruction at a time -/

/-- V1: the word placed before reset's order is what the first step runs. -/
theorem test_first_step_runs_arm :
    after (step (State.reset.withFetchWord 64 0x1000004000001000)) (fun t => (t.armed, t.rxBase, t.rxN, t.resp))
      = some (true, 0x1000, 64, some 0x00000000) := by decide
/-- V14: the response of an illegal word. -/
theorem test_first_step_answers_illegal :
    after (step (State.reset.withFetchWord 64 0xFFFFFFFFFFFFFFFF)) (fun t => (t.armed, t.pStage, t.resp))
      = some (false, .awaitSync1, some 0x0000000F) := by decide
/-- V16: ALREADY_ARMED comes before INVALID_DESCRIPTOR. -/
theorem test_arm_v16_already_armed :
    after (exec (.arm 0 0) { armedAt 0x1000 64 3 3 with now := 9 }) (fun t => (t.rxBase, t.rxIdx, t.resp))
      = some (0x1000, 3, some 0x00000001) := by decide
/-- V19: one above MAX_XFER. -/
theorem test_arm_v19_invalid_descriptor :
    after (exec (.arm 0x1000 65) State.reset) (fun t => (t.armed, t.rxN, t.resp)) = some (false, 0, some 0x00000002) := by
  decide
/-- V25: the byte that fills the buffer completes the request. -/
theorem test_byte_v25_fills :
    after (exec (.byte 0x5A) { armedAt 0x1000 1 0 0 with now := 4 })
      (fun t => (t.armed, t.rxOutlen, t.rxLast, t.mem)) = some (false, 1, 4, [(0x1000, 0x5A)]) := by decide
/-- V26a: the address of the third byte wraps past 2^32 - 1. -/
theorem test_byte_v26a_wraps :
    after (exec (.byte 0xA3) { armedAt 0xFFFFFFFE 4 2 2 with now := 3 }) (fun t => (t.armed, t.rxIdx, t.mem))
      = some (true, 3, [(0, 0xA3)]) := by decide
/-- V28: at the deadline itself the request completes. -/
theorem test_tick_v28_at_deadline :
    after (exec .tick { armedAt 0x1000 64 1 10 with now := 15 }) (fun t => (t.armed, t.rxOut, t.rxOutlen))
      = some (false, true, 1) := by decide
/-- V31: a tick before the byte's own time completes nothing. -/
theorem test_tick_v31_stale :
    after (exec .tick { armedAt 0x1000 64 1 20 with now := 3 }) (fun t => (t.armed, t.rxOut, t.resp))
      = some (true, false, some 0x00000000) := by decide
/-- V36: the largest length fills the value field. -/
theorem test_status_v36_data :
    after (exec .status { State.reset with rxOut := true, rxOutlen := 65535 }) (fun t => (t.rxOut, t.resp))
      = some (true, some 0xFFFF0001) := by decide
/-- V34: armed and filling is NONE. -/
theorem test_status_v34_none :
    after (exec .status (armedAt 0x1000 64 0 0)) (fun t => t.resp) = some (some 0x00000000) := by decide
/-- R134: a rejected 0x42 is taken as a new sync-1. -/
theorem test_feed_re_entry :
    after (exec (.feed 0x42) (inStage .awaitSync2 1 0 0x0042)) (fun t => (t.pStage, t.pIdx, t.pAcc, t.resp))
      = some (.awaitSync2, 1, 0x0042, some 0x00000002) := by decide
/-- The last byte of a LEN = 28 frame of zeros: the sum 0x42 + 0x4D + 0x1C is 0xAB, and all 12 fields are 0. -/
theorem test_feed_last_byte :
    after (exec (.feed 0xAB) heldFrame) (fun t => (t.pStage, t.resp, t.reading.map Reading.pack))
      = some (.awaitSync1, some 0x00000001, some 0) := by decide
/-- R210: reset keeps host memory and forgets the frame buffer. -/
theorem test_reset_step :
    after (step (waiting { heldFrame with mem := [(5, 7)] } [.rst]))
      (fun t => (t.pIdx, t.fb, t.resets, t.mem)) = some (0, [], 1, [(5, 7)]) := by decide
/-- R60: a host load in the armed range returns what stands there. -/
theorem test_host_load_step :
    after (step (waiting { armedAt 0x1000 2 0 0 with mem := [(0x1001, 7)] } [.hostLoad 0x1001])) (fun t => t.loaded)
      = some (some 7) := by decide
/-- R91: one item of DRAIN feeds the byte the host loads. -/
theorem test_drain_step :
    after (step (waiting { State.reset with mem := [(0x1000, 0x42)] } (Script.drain 0x1000 1)))
      (fun t => (t.pStage, t.resp)) = some (.awaitSync2, some 0x00000000) := by decide
/-- R91: SEND is one BYTE every `dt` ticks, here dt = 2 from t = 3. -/
theorem test_send_expands :
    Script.send [0x11, 0x22] 3 2 = [.command 0x2000000000000011 3, .command 0x2000000000000022 5] := by decide
/-- R91: FRAME with LEN = 2 has no data bytes, and its checksum is 0x42 + 0x4D + 2. -/
theorem test_wire_frame_empty : wireFrame [] = [0x42, 0x4D, 0x00, 0x02, 0x00, 0x91] := by decide
/-- HD8: a BYTE presented by the control loop breaks the duty, a STATUS does not. -/
theorem test_keeps_role :
    keepsRole (.controlLoop, .command 0x2000000000000011 0) = false
      ∧ keepsRole (.controlLoop, .command 0x4000000000000000 0) = true := by decide
/-- R188: one agent's events keep their order in a schedule. -/
theorem test_events_of :
    eventsOf .byteSource [(.byteSource, .hostLoad 1), (.tickSource, .hostLoad 9), (.byteSource, .hostLoad 2)]
      = [.hostLoad 1, .hostLoad 2] := by decide

/-! ## Witnesses: a state and operands that meet an obligation's hypotheses, all together

One for each clause that has its own, at a boundary value where the clause has a range. -/

/-- A whole frame but its last byte is held, and that byte's FEED waits. -/
def heldFeed : State := waiting heldFrame [.command 0x50000000000000AB 0]

theorem heldFeed_inv : heldFeed.Inv := by
  refine ⟨by decide, by decide, by decide, by decide, ?_, ⟨(nomatch ·), (nomatch ·), by decide, by decide⟩, ?_⟩
  · show ∀ i, i < 31 → (heldFeed.fb.byteAt i).isSome = true
    decide
  · exact ⟨⟨by decide, by decide⟩, ⟨by decide, by decide, by decide⟩, by decide, by decide, .inl ⟨by decide, .inl rfl⟩⟩

/-- A LEN = 3 frame with its header held: the next byte is its only data byte. -/
def heldHeader : State := holding .readData [0x42, 0x4D, 0x00, 0x03] 3 0x0092

theorem heldHeader_inv : heldHeader.Inv := by
  refine ⟨by decide, by decide, by decide, by decide, ?_, ⟨(nomatch ·), (nomatch ·), by decide, by decide⟩, ?_⟩
  · show ∀ i, i < 4 → (heldHeader.fb.byteAt i).isSome = true
    decide
  · exact ⟨⟨by decide, by decide⟩, ⟨by decide, by decide, by decide⟩, by decide, by decide, by decide, .inl (by decide)⟩

/-- An armed request meets the engine's invariant, at the boundary of each range. -/
theorem armed_inv : (armedAt 0xFFFFFFFF 64 63 0).EngineInv :=
  ⟨fun _ => ⟨by decide, by decide, by decide, by decide, rfl⟩, (nomatch ·), by decide, by decide⟩

/-- A request completed by its idle timeout. -/
def completed : State := { armedAt 0x1000 64 3 0 with armed := false, rxOut := true, rxOutlen := 3 }

theorem completed_inv : completed.EngineInv :=
  ⟨(nomatch ·), fun _ => ⟨rfl, by decide, by decide, rfl⟩, by decide, by decide⟩

theorem witness_EncodeOfDecodedIsTheWord : ∃ w i, decode w = .legal i :=
  ⟨0x1000FFFFFFFFFFFF#64, .arm 0xFFFFFFFF 0xFFFF, by decide⟩

theorem witness_StepPerformsThePresentedCommand : ∃ (s : State) (w : CmdWord) (t : Nat) (rest : List PortEvent) (i : Instr),
    s.pending = .command w t :: rest ∧ decode w = .legal i ∧ (samplesNow i = true → t < 2 ^ s.cfg.tsW) :=
  ⟨waiting State.reset [.command 0x3000000000000000 0xFFFFFFFF], 0x3000000000000000, 0xFFFFFFFF, [], .tick, rfl, by decide,
    by decide⟩

theorem witness_IllegalWordAnswersAndChangesNothing : ∃ (s : State) (w : CmdWord) (t : Nat) (rest : List PortEvent),
    s.pending = .command w t :: rest ∧ w &&& 0xFFFF000000000000#64 ≠ 0x1000000000000000#64
      ∧ w &&& 0xFFFFFFFFFFFFFF00#64 ≠ 0x2000000000000000#64 ∧ w ≠ 0x3000000000000000#64 ∧ w ≠ 0x4000000000000000#64
      ∧ w &&& 0xFFFFFFFFFFFFFF00#64 ≠ 0x5000000000000000#64 :=
  ⟨waiting State.reset [.command 0x2000000000000100 0], 0x2000000000000100, 0, [], rfl, by decide⟩

theorem witness_ScriptRunsCommandByCommand : ∃ (cs : List (Instr × Nat)) (s : State), cs ≠ [] ∧
    s.pending = [] ∧ s.loaded = none ∧ (∀ c ∈ cs, samplesNow c.1 = true → c.2 < 2 ^ s.cfg.tsW) :=
  ⟨[(.byte 1, 0xFFFFFFFF), (.status, 0x100000000)], State.reset, by decide, rfl, rfl, by decide⟩

/-- Both refusals, the first at the last byte the engine owns and the second at the first value beyond the port. -/
theorem witness_StepRefusesExactlyTheNamedInputs :
    step (waiting (armedAt 0xFFFFFFFF 2 0 0) [.hostStore 0 7]) = .refused .hostStoreIntoArmedBuffer
      ∧ step (waiting State.reset [.command 0x3000000000000000 0x100000000]) = .refused .timestampBeyondPort := ⟨rfl, rfl⟩

theorem witness_EveryCommandReturnsOneResponse : ∃ (s : State) (w : CmdWord) (t : Nat) (rest : List PortEvent)
    (why : IllegalWord), s.pending = .command w t :: rest ∧ decode w = .illegal why :=
  ⟨waiting State.reset [.command 0 0], 0, 0, [], .reservedOp, rfl, by decide⟩

theorem witness_CommandsReturnOnlyTheirCodes :
    (∃ t, completed.EngineInv ∧ exec .status completed = .next t)
      ∧ (waiting State.reset [.command 0 0]).pending = [.command 0 0] ∧ decode 0 = .illegal .reservedOp :=
  ⟨⟨_, completed_inv, rfl⟩, rfl, by decide⟩

theorem witness_ReadingStandsOnlyWithOk :
    (∃ t, exec (.feed 0xAB) heldFrame = .next t)
      ∧ (waiting State.reset [.command 0 0]).pending = [.command 0 0] ∧ decode 0 = .illegal .reservedOp :=
  ⟨⟨_, rfl⟩, rfl, by decide⟩

theorem witness_StatusAndFeedIgnoreNow : samplesNow (.feed 0xAB) = false ∧ ∃ t, exec (.feed 0xAB) heldFrame = .next t :=
  ⟨rfl, _, rfl⟩

theorem witness_ResetInputRestoresEveryRegister : (waiting heldFrame [.rst]).pending = .rst :: [] := rfl

theorem witness_NoStepChangesTheConfiguration : ∃ t, step (waiting heldFrame [.rst]) = .next t := ⟨_, rfl⟩

theorem witness_ByteStoresAtTheBufferAddress :
    (armedAt 0xFFFFFFFF 64 63 0).armed = true ∧ ∃ t, exec (.byte 7) (armedAt 0xFFFFFFFF 64 63 0) = .next t :=
  ⟨rfl, _, rfl⟩

theorem witness_StatusFollowsItsRule :
    completed.EngineInv ∧ notArm (.byte 7) = true ∧ completed.rxOut = true ∧ ∃ t, exec (.byte 7) completed = .next t :=
  ⟨completed_inv, rfl, rfl, _, rfl⟩

/-- Every clause's premise: each command ends with a next state, in a state with and in one without an armed request, and
an ARM with a null base is refused in the latter. -/
theorem witness_CommandsKeepTheWriterDiscipline :
    (∃ t, exec (.arm 1 64) State.reset = .next t ∧ State.reset.armed = false ∧ t.armed = true)
      ∧ (∃ t, exec (.arm 0 64) State.reset = .next t ∧ State.reset.armed = false ∧ t.armed = false)
      ∧ (∃ t, exec (.arm 1 64) (armedAt 1 64 0 0) = .next t ∧ (armedAt 1 64 0 0).armed = true)
      ∧ (∃ t, exec (.byte 7) State.reset = .next t) ∧ (∃ t, exec (.byte 7) (armedAt 1 64 0 0) = .next t)
      ∧ (∃ t, exec .tick (armedAt 1 64 1 0) = .next t) ∧ (∃ t, exec .status completed = .next t)
      ∧ ∃ t, exec (.feed 0xAB) heldFrame = .next t :=
  ⟨⟨_, rfl, rfl, rfl⟩, ⟨_, rfl, rfl, rfl⟩, ⟨_, rfl, rfl⟩, ⟨_, rfl⟩, ⟨_, rfl⟩, ⟨_, rfl⟩, ⟨_, rfl⟩, _, rfl⟩

theorem witness_ReArmLeavesTheRequestAsItWas : (armedAt 0x1000 64 3 3).armed = true := rfl

theorem witness_ReArmDiscardsTheOutcome :
    completed.armed = false ∧ (1 : Addr) ≠ 0 ∧ (64 : Half) ≠ 0 ∧ (64 : Half).toNat ≤ completed.cfg.maxXfer :=
  ⟨rfl, by decide, by decide, by decide⟩

theorem witness_RequestCompletesOnceWithTheBytesStored :
    (armedAt 0xFFFFFFFF 2 0 0).EngineInv ∧ (armedAt 0xFFFFFFFF 2 0 0).armed = true ∧ (armedAt 0xFFFFFFFF 2 0 0).rxIdx = 0
      ∧ ∀ c ∈ [(Instr.byte 1, 1), (.tick, 1), (.byte 2, 3), (.status, 0), (.byte 3, 4)], notArm c.1 = true :=
  ⟨⟨fun _ => ⟨by decide, by decide, by decide, by decide, rfl⟩, (nomatch ·), by decide, by decide⟩, rfl, rfl, by decide⟩

theorem witness_DrainWindowDiscardsEveryByte :
    completed.armed = false ∧ ∀ c ∈ [(Instr.byte 1, 1), (.tick, 9), (.feed 2, 0)], notArm c.1 = true := by decide

/-- One early TICK at the last moment before the deadline 15, and one at the deadline, one tick of time apart. -/
theorem witness_IdleRequestCompletesAtTheFirstTickAfterTheDeadline :
    (armedAt 0x1000 64 1 10).armed = true ∧ 1 ≤ (armedAt 0x1000 64 1 10).rxIdx.toNat
      ∧ (armedAt 0x1000 64 1 10).rxOut = false
      ∧ (∀ t ∈ [14], t < (armedAt 0x1000 64 1 10).rxLast + (armedAt 0x1000 64 1 10).cfg.idleTimeout)
      ∧ (armedAt 0x1000 64 1 10).rxLast + (armedAt 0x1000 64 1 10).cfg.idleTimeout ≤ 15
      ∧ TicksOnTime (armedAt 0x1000 64 1 10).cfg (([14] ++ [15]).map fun t => Script.present .tick t) := by
  refine ⟨rfl, by decide, rfl, by decide, by decide, by decide, ?_⟩
  show List.IsChain (fun a b => a ≤ b ∧ b ≤ a + 1) [14, 15]
  simp

theorem witness_EmptyRequestNeverTimesOut : (armedAt 0x1000 64 0 0).armed = true ∧ (armedAt 0x1000 64 0 0).rxIdx = 0 :=
  ⟨rfl, rfl⟩

theorem witness_StaleTickCompletesNothing : ∃ (s t : State) (b : Byte) (n : Nat),
    s.armed = true ∧ exec (.byte b) s = .next t ∧ n < s.now :=
  ⟨{ armedAt 0x1000 64 0 0 with now := 20 }, _, 0x42, 19, rfl, rfl, by decide⟩

/-- The second state's BYTE fills the buffer, the first one's does not, and the first one's TICK may be either side of
the byte's own deadline. -/
theorem witness_ByteAndTickCommuteOnlyAsTheRulesSay :
    ((armedAt 0xFFFFFFFF 64 62 0).EngineInv ∧ 1 ≤ (armedAt 0xFFFFFFFF 64 62 0).rxIdx.toNat ∧ 0 + 5 ≤ 5
        ∧ (armedAt 0xFFFFFFFF 64 62 0).rxIdx + 1 ≠ (armedAt 0xFFFFFFFF 64 62 0).rxN ∧ 0 + 5 ≤ 5 ∧ 5 < 1 + 5)
      ∧ (armedAt 0xFFFFFFFF 64 63 0).EngineInv ∧ (armedAt 0xFFFFFFFF 64 63 0).armed = true
        ∧ (armedAt 0xFFFFFFFF 64 63 0).rxIdx + 1 = (armedAt 0xFFFFFFFF 64 63 0).rxN :=
  ⟨⟨⟨fun _ => ⟨by decide, by decide, by decide, by decide, rfl⟩, (nomatch ·), by decide, by decide⟩, by decide⟩,
    armed_inv, rfl, by decide⟩

theorem witness_TickAndStatusAreIdempotent :
    (∃ t, exec .tick { armedAt 0x1000 64 1 10 with now := 15 } = .next t) ∧ (∃ t, exec .status completed = .next t)
      ∧ ∃ t, exec (.arm 1 64) State.reset = .next t ∧ t.resp = some (respWord 0x0 0) :=
  ⟨⟨_, rfl⟩, ⟨_, rfl⟩, _, rfl, rfl⟩

theorem witness_OnlyAFillingByteOrAnIdleTickEndsARequest :
    (∃ t, (armedAt 1 64 63 0).armed = true ∧ exec (.byte 7) (armedAt 1 64 63 0) = .next t ∧ t.armed = false)
      ∧ ∃ t, exec .tick { armedAt 1 64 1 10 with now := 15 } = .next t ∧ t.armed = false :=
  ⟨⟨_, rfl, rfl, rfl⟩, _, rfl, rfl⟩

theorem witness_OnceArmedAlwaysArmedOrCompleted :
    (∃ t, exec (.arm 1 64) State.reset = .next t ∧ State.reset.armed = false ∧ t.resp = some (respWord 0x0 0))
      ∧ (waiting completed [.hostLoad 0]).rxOut = true ∧ (waiting completed [.hostLoad 0]).pending.head? ≠ some .rst
      ∧ ∃ t, step (waiting completed [.hostLoad 0]) = .next t :=
  ⟨⟨_, rfl, rfl, rfl⟩, rfl, by decide, _, rfl⟩

/-- Two bytes are owned, at 0xFFFFFFFF and 0: the last owned one, the first one beyond, and a load. -/
theorem witness_HostAccessesRespectBufferOwnership :
    ((armedAt 0xFFFFFFFF 2 0 0).armed = true ∧ ∃ k, k < (armedAt 0xFFFFFFFF 2 0 0).rxN.toNat
        ∧ (0 : Addr) = (armedAt 0xFFFFFFFF 2 0 0).rxBase + BitVec.ofNat 32 k)
      ∧ (∀ k, k < (armedAt 0xFFFFFFFF 2 0 0).rxN.toNat →
        (1 : Addr) ≠ (armedAt 0xFFFFFFFF 2 0 0).rxBase + BitVec.ofNat 32 k)
      ∧ (waiting completed [.hostStore 0x1000 7]).armed = false
      ∧ (waiting completed [.hostLoad 0x1000]).pending = [.hostLoad 0x1000] :=
  ⟨⟨rfl, 1, by decide, by decide⟩, by decide, rfl, rfl⟩

theorem witness_OverflowGuardResetsAndDropsTheByte :
    (inStage .readData 32 2 0).pStage ≠ .awaitSync1
      ∧ (inStage .readData 32 2 0).cfg.frameCap ≤ (inStage .readData 32 2 0).pIdx.toNat
      ∧ State.reset.pStage = .awaitSync1 := by decide

theorem witness_AwaitSync1FollowsItsRule : State.reset.pStage = .awaitSync1 := rfl

/-- The last index at which the guard lets each stage run. -/
theorem witness_StageBelowTheGuard : ∀ st : Stage,
    (inStage st 31 2 0).pStage = st ∧ 1 ≤ (inStage st 31 2 0).pIdx.toNat
      ∧ (inStage st 31 2 0).pIdx.toNat < (inStage st 31 2 0).cfg.frameCap ∧ (inStage st 31 2 0).cfg.frameCap ≤ 65539 := by
  intro st; cases st <;> decide

theorem witness_AwaitSync2FollowsItsRule :
    (inStage .awaitSync2 1 0 0x42).pStage = .awaitSync2
      ∧ (inStage .awaitSync2 1 0 0x42).pIdx.toNat < (inStage .awaitSync2 1 0 0x42).cfg.frameCap := by decide

theorem witness_ReadLenHiFollowsItsRule :
    (inStage .readLenHi 2 0 0x8F).pStage = .readLenHi
      ∧ (inStage .readLenHi 2 0 0x8F).pIdx.toNat < (inStage .readLenHi 2 0 0x8F).cfg.frameCap := by decide

/-- LEN = FRAME_CAP - 4 = 28 and LEN = FRAME_CAP - 3 = 29, the two sides of the check. -/
theorem witness_ReadLenLoFollowsItsRule :
    (inStage .readLenLo 3 0 0x8F).pStage = .readLenLo
      ∧ (inStage .readLenLo 3 0 0x8F).pIdx.toNat < (inStage .readLenLo 3 0 0x8F).cfg.frameCap
      ∧ (0x001C#16 : Half) = (inStage .readLenLo 3 0 0x8F).pLen.extractLsb' 8 8 ++ 0x1C#8
      ∧ (0x001D#16 : Half) = (inStage .readLenLo 3 0 0x8F).pLen.extractLsb' 8 8 ++ 0x1D#8 := by decide

theorem witness_ReadDataFollowsItsRule :
    heldHeader.pStage = .readData ∧ heldHeader.pIdx.toNat < heldHeader.cfg.frameCap := by decide

theorem witness_ReadChecksumHiFollowsItsRule :
    (inStage .readChecksumHi 30 28 0xAB).pStage = .readChecksumHi
      ∧ (inStage .readChecksumHi 30 28 0xAB).pIdx.toNat < (inStage .readChecksumHi 30 28 0xAB).cfg.frameCap := by decide

/-- The byte 0xAB matches the sum and any other does not; a LEN of 28 and one of 27 are the two sides of the test. -/
theorem witness_ReadChecksumLoFollowsItsRule :
    (heldFrame.pStage = .readChecksumLo ∧ 1 ≤ heldFrame.pIdx.toNat ∧ heldFrame.pIdx.toNat < heldFrame.cfg.frameCap
        ∧ heldFrame.cfg.frameCap ≤ 65539)
      ∧ (heldFrame.fbByte (heldFrame.pIdx.toNat - 1) ++ 0xAB#8 = heldFrame.pAcc ∧ 28 ≤ heldFrame.pLen.toNat)
      ∧ heldFrame.fbByte (heldFrame.pIdx.toNat - 1) ++ 0xAC#8 ≠ heldFrame.pAcc
      ∧ ({ heldFrame with pLen := 27 } : State).pLen.toNat < 28 := by decide

/-- The three ways an offset stays: the guard, a byte for AwaitSync1, any other stage. -/
theorem witness_FeedChangesOnlyTheParser :
    ((inStage .readData 32 2 0).pStage ≠ .awaitSync1
        ∧ (inStage .readData 32 2 0).cfg.frameCap ≤ (inStage .readData 32 2 0).pIdx.toNat)
      ∧ State.reset.pStage = .awaitSync1
      ∧ (heldFrame.pStage ≠ .awaitSync1 ∧ (30 : Nat) ≠ heldFrame.pIdx.toNat) := by decide

theorem witness_AccumulatorIsTheFrameSumAtTheChecksum : ∃ (b : Byte) (s t : State),
    s.Inv ∧ s.pStage ≠ .readChecksumHi ∧ exec (.feed b) s = .next t ∧ t.pStage = .readChecksumHi
      ∧ (t.cfg.zeroData = .skipData ∨ 3 ≤ t.pLen.toNat) :=
  ⟨0xFF, heldHeader, _, heldHeader_inv, by decide, rfl, by decide, .inr (by decide)⟩

theorem witness_OkOnlyAfterAValidatedFrame : ∃ (b : Byte) (s t : State),
    s.Inv ∧ exec (.feed b) s = .next t ∧ t.resp = some (respWord 0x1 0) :=
  ⟨0xAB, heldFeed, _, heldFeed_inv, rfl, by decide⟩

theorem witness_EveryErrorReturnsToSyncSearch :
    (∃ t, exec (.feed 0xAC) heldFrame = .next t ∧ t.resp ≠ some (respWord 0x0 0))
      ∧ ∃ t, exec (.feed 0x42) (inStage .awaitSync2 1 0 0x42) = .next t ∧ t.resp ≠ some (respWord 0x0 0) :=
  ⟨⟨_, rfl, by decide⟩, _, rfl, by decide⟩

theorem witness_RunOfSyncBytesDoesNotGrow :
    (inStage .awaitSync2 1 0 0x42).pStage = .awaitSync2 ∧ (inStage .awaitSync2 1 0 0x42).pIdx = 1
      ∧ (inStage .awaitSync2 1 0 0x42).pAcc = 0x0042 ∧ 32 ≤ (inStage .awaitSync2 1 0 0x42).cfg.frameCap := by decide

/-- LEN = 28 is both the smallest and, with FRAME_CAP = 32, the largest length. -/
theorem witness_ValidFrameIsReadBack :
    State.reset.cfg.legal = true ∧ State.reset.pStage = .awaitSync1 ∧ 26 ≤ zeros.length
      ∧ zeros.length + 6 ≤ State.reset.cfg.frameCap ∧ (0x00AC : Half) ≠ frameSum zeros := by decide

theorem witness_ParserResynchronisesOnAFreshFrame :
    State.reset.cfg.legal = true ∧ State.reset.pStage = .awaitSync1 ∧ (0x42#8 ∉ [0x41#8, 0x4D#8])
      ∧ (0x00 : Byte) ≠ 0x42 ∧ (0x00 : Byte) ≠ 0x4D ∧ 26 ≤ zeros.length
      ∧ zeros.length + 6 ≤ State.reset.cfg.frameCap := by decide

theorem witness_FlippedDataBitGivesChecksumError :
    State.reset.cfg.legal = true ∧ State.reset.pStage = .awaitSync1 ∧ 26 ≤ zeros.length
      ∧ zeros.length + 6 ≤ State.reset.cfg.frameCap ∧ 25 < zeros.length ∧ 7 < 8 := by decide

/-- A LEN of 1 and one of 29 fail the check, one from each side. -/
theorem witness_FlippedSyncByteOrFailingLenEndsInSyncSearch :
    State.reset.cfg.legal = true ∧ State.reset.pStage = .awaitSync1 ∧ 7 < 8 ∧ (1 : Half).toNat < 2
      ∧ State.reset.cfg.frameCap < 4 + (29 : Half).toNat := by decide

theorem witness_ZeroDataPoliciesDifferAsTabled : ∀ p : ZeroDataPolicy,
    (withPolicy p State.reset).cfg.legal = true ∧ (withPolicy p State.reset).pStage = .awaitSync1
      ∧ (withPolicy p State.reset).cfg.zeroData = p
      ∧ (List.replicate 28 (0 : Byte)).length + 4 = (withPolicy p State.reset).cfg.frameCap := by
  intro p; cases p <;> decide

theorem witness_NoOverflowUnderTerminatingPolicies : ∃ (b : Byte) (s t : State),
    s.Inv ∧ s.cfg.zeroData ≠ .stallInData ∧ exec (.feed b) s = .next t :=
  ⟨0xAB, heldFeed, _, heldFeed_inv, by decide, rfl⟩

/-- The same parser after another number of resets, beside an armed request: FB agrees on the four bytes held, and holds
other free values above them. -/
def heldHeaderElsewhere : State := { heldHeader with resets := 3, armed := true, rxBase := 0x1000, rxN := 64 }

theorem heldHeaderElsewhere_inv : heldHeaderElsewhere.Inv := by
  refine ⟨by decide, by decide, by decide, by decide, ?_, ?_, ?_⟩
  · exact heldHeader_inv.fbHolds
  · exact ⟨fun _ => ⟨by decide, by decide, by decide, by decide, rfl⟩, (nomatch ·), by decide, by decide⟩
  · exact heldHeader_inv.parser

/-- The first clause from two states whose FB differs above P_IDX, the second from two whose FB agrees everywhere. -/
theorem witness_FeedOutcomesDependOnlyOnTheBytesFed :
    fedBytes [(.feed 0x42, 0), (.feed 0x4D, 0)] = fedBytes [(.arm 1 1, 3), (.feed 0x42, 4), (.byte 9, 5), (.feed 0x4D, 6)]
      ∧ (heldHeader.cfg = heldHeaderElsewhere.cfg ∧ heldHeader.pStage = heldHeaderElsewhere.pStage
        ∧ heldHeader.pIdx = heldHeaderElsewhere.pIdx ∧ heldHeader.pLen = heldHeaderElsewhere.pLen
        ∧ heldHeader.pAcc = heldHeaderElsewhere.pAcc ∧ heldHeader.Inv ∧ heldHeaderElsewhere.Inv
        ∧ ∀ j, j < heldHeader.pIdx.toNat → heldHeader.fbByte j = heldHeaderElsewhere.fbByte j)
      ∧ State.reset.cfg = (armedAt 0x1000 64 3 3).cfg ∧ State.reset.pStage = (armedAt 0x1000 64 3 3).pStage
      ∧ State.reset.pIdx = (armedAt 0x1000 64 3 3).pIdx ∧ State.reset.pLen = (armedAt 0x1000 64 3 3).pLen
      ∧ State.reset.pAcc = (armedAt 0x1000 64 3 3).pAcc
      ∧ ∀ j, State.reset.fbByte j = (armedAt 0x1000 64 3 3).fbByte j :=
  ⟨rfl, ⟨rfl, rfl, rfl, rfl, rfl, heldHeader_inv, heldHeaderElsewhere_inv, by
    show ∀ j, j < 4 → heldHeader.fbByte j = heldHeaderElsewhere.fbByte j
    intro j hj
    match j, hj with
    | 0, _ | 1, _ | 2, _ | 3, _ => rfl⟩, rfl, rfl, rfl, rfl, rfl, fun _ => rfl⟩

theorem witness_EveryStepKeepsTheInvariant : ∃ s t : State, s.Inv ∧ step s = .next t :=
  ⟨heldFeed, _, heldFeed_inv, rfl⟩

/-- A configuration at the upper end of every range. -/
theorem witness_ResetMeetsTheInvariant : Config.legal
    { idleTimeout := 1, frameCap := 65539, maxXfer := 65535, tsW := 16, zeroData := .stallInData, tickMaxInterval := 1 }
      = true := by decide

theorem witness_LastActivityNeverRunsAheadOfTime : ∃ (cs ds : List (Instr × Nat)) (s t : State), cs ≠ [] ∧ ds ≠ [] ∧
    KeepsTime ((cs ++ ds).map fun c => Script.present c.1 c.2)
      ∧ (∀ c ∈ cs ++ ds, samplesNow c.1 = true → s.rxLast ≤ c.2) ∧ (performAll cs s).2 = .next t :=
  ⟨[(.byte 7, 5)], [(.tick, 5)], armedAt 0x1000 64 1 5, _, by decide, by decide, by
    show List.Pairwise (· ≤ ·) [5, 5]
    decide, by decide, rfl⟩

end Sys2Proof.Tests
end

section
/-! PROOFS. What BYTE writes to host memory (20_memory.md R55). -/

namespace Sys2Proof.Machine

/-- Whether or not the byte fills the buffer, an armed BYTE makes one write, at the buffer address. -/
theorem exec_byte_mem_of_armed {b : Byte} {s t : State} (ha : s.armed = true) (h : exec (.byte b) s = .next t) :
    t.mem = s.mem.setByte s.bufferAddr.toNat b := by
  obtain ⟨hn, -⟩ | ⟨-, -, e⟩ | ⟨-, -, e⟩ := execByte_cases b s
  · simp [ha] at hn
  all_goals
    rw [exec, e] at h
    cases h
    simp

/-- Settles O19: an armed BYTE is one write at the buffer address, so a read there gives the byte and a read elsewhere
misses it. -/
theorem byteStoresAtTheBufferAddress : Obligations.ByteStoresAtTheBufferAddress := by
  unfold Obligations.ByteStoresAtTheBufferAddress
  intro b s t ha h
  have hread := hostByte_of_setByte (exec_byte_mem_of_armed ha h)
  exact ⟨bufferAddr_toNat s, (hread _).trans (if_pos rfl), fun a hne => (hread a).trans (if_neg hne)⟩

end Sys2Proof.Machine
end

section
/-! PROOFS. The decoder's fields against the masks of the opcode table (30_encoding.md R78, R83). -/

namespace Sys2Proof

/-- Masking the bits below `z` away, as a number. -/
theorem and_highMask_toNat (w : CmdWord) (z : Nat) :
    (w &&& BitVec.allOnes 64 <<< z).toNat = w.toNat / 2 ^ z * 2 ^ z := by
  rw [← BitVec.shiftLeft_ushiftRight, BitVec.toNat_shiftLeft, BitVec.toNat_ushiftRight, Nat.shiftLeft_eq,
    Nat.shiftRight_eq_div_pow]
  exact Nat.mod_eq_of_lt ((Nat.div_mul_le_self _ _).trans_lt w.isLt)

/-- In each of the formats A, B and N, whose zeros end at bit `z`, `op` and the zeros are the masked word. -/
theorem op_and_zeros_iff (w : CmdWord) (op : BitVec 4) {z : Nat} (hz : z = 48 ∨ z = 8 ∨ z = 0) :
    cmdField w 63 60 = op ∧ cmdField w 59 z = 0 ↔ w &&& BitVec.allOnes 64 <<< z = op ++ 0#60 := by
  have hw := w.isLt
  simp only [← BitVec.toNat_inj, cmdField_toNat, and_highMask_toNat, append_toNat 4 60, BitVec.ofNat_eq_ofNat,
    BitVec.toNat_ofNat]
  obtain rfl | rfl | rfl := hz <;> omega

theorem formatA_iff (w : CmdWord) (op : BitVec 4) :
    cmdField w 63 60 = op ∧ cmdField w 59 48 = 0 ↔ w &&& 0xFFFF000000000000#64 = op ++ 0#60 :=
  op_and_zeros_iff w op (.inl rfl)

theorem formatB_iff (w : CmdWord) (op : BitVec 4) :
    cmdField w 63 60 = op ∧ cmdField w 59 8 = 0 ↔ w &&& 0xFFFFFFFFFFFFFF00#64 = op ++ 0#60 :=
  op_and_zeros_iff w op (.inr (.inl rfl))

theorem formatN_iff (w : CmdWord) (op : BitVec 4) :
    cmdField w 63 60 = op ∧ cmdField w 59 0 = 0 ↔ w = op ++ 0#60 := by
  rw [op_and_zeros_iff w op (.inr (.inr rfl)), BitVec.shiftLeft_zero, BitVec.and_allOnes]

/-- What decodes to a command, said once: the word under the mask of the command's format, and the operands where the
format puts them. -/
theorem decode_eq_legal_iff (w : CmdWord) (i : Instr) : decode w = .legal i ↔
    (w &&& 0xFFFF000000000000#64 = 0x1000000000000000#64 ∧ .arm (cmdField w 31 0) (cmdField w 47 32) = i)
    ∨ (w &&& 0xFFFFFFFFFFFFFF00#64 = 0x2000000000000000#64 ∧ .byte (cmdField w 7 0) = i)
    ∨ (w = 0x3000000000000000#64 ∧ .tick = i)
    ∨ (w = 0x4000000000000000#64 ∧ .status = i)
    ∨ (w &&& 0xFFFFFFFFFFFFFF00#64 = 0x5000000000000000#64 ∧ .feed (cmdField w 7 0) = i) := by
  have harm := formatA_iff w 0x1#4
  have hbyte := formatB_iff w 0x2#4
  have htick := formatN_iff w 0x3#4
  have hstatus := formatN_iff w 0x4#4
  have hfeed := formatB_iff w 0x5#4
  simp only [BitVec.reduceAppend] at harm hbyte htick hstatus hfeed
  rw [← harm, ← hbyte, ← htick, ← hstatus, ← hfeed, decode]
  split_ifs with h1 h2 h3 h4 h5
  · simp [whenZero_eq_legal, h1]
  · simp [whenZero_eq_legal, h2]
  · simp [whenZero_eq_legal, h3]
  · simp [whenZero_eq_legal, h4]
  · simp [whenZero_eq_legal, h5]
  · simp [h1, h2, h3, h4, h5]

theorem decode_eq_arm_iff (w : CmdWord) (base : Addr) (cap : Half) : decode w = .legal (.arm base cap) ↔
    w &&& 0xFFFF000000000000#64 = 0x1000000000000000#64 ∧ cap = w.extractLsb' 32 16 ∧ base = w.extractLsb' 0 32 := by
  simp [decode_eq_legal_iff, cmdField, BitVec.extractLsb, and_comm, eq_comm]

theorem decode_eq_byte_iff (w : CmdWord) (b : Byte) : decode w = .legal (.byte b) ↔
    w &&& 0xFFFFFFFFFFFFFF00#64 = 0x2000000000000000#64 ∧ b = w.extractLsb' 0 8 := by
  simp [decode_eq_legal_iff, cmdField, BitVec.extractLsb, eq_comm]

theorem decode_eq_tick_iff (w : CmdWord) : decode w = .legal .tick ↔ w = 0x3000000000000000#64 := by
  simp [decode_eq_legal_iff]

theorem decode_eq_status_iff (w : CmdWord) : decode w = .legal .status ↔ w = 0x4000000000000000#64 := by
  simp [decode_eq_legal_iff]

theorem decode_eq_feed_iff (w : CmdWord) (b : Byte) : decode w = .legal (.feed b) ↔
    w &&& 0xFFFFFFFFFFFFFF00#64 = 0x5000000000000000#64 ∧ b = w.extractLsb' 0 8 := by
  simp [decode_eq_legal_iff, cmdField, BitVec.extractLsb, eq_comm]

/-- ILLEGAL is what the five patterns of the opcode table leave. -/
theorem exists_illegal_iff (w : CmdWord) : (∃ why, decode w = .illegal why) ↔
    w &&& 0xFFFF000000000000#64 ≠ 0x1000000000000000#64
      ∧ w &&& 0xFFFFFFFFFFFFFF00#64 ≠ 0x2000000000000000#64
      ∧ w ≠ 0x3000000000000000#64
      ∧ w ≠ 0x4000000000000000#64
      ∧ w &&& 0xFFFFFFFFFFFFFF00#64 ≠ 0x5000000000000000#64 := by
  constructor
  · rintro ⟨why, h⟩
    have hne (i : Instr) : decode w ≠ .legal i := by simp [h]
    exact ⟨fun e => hne _ ((decode_eq_arm_iff w _ _).2 ⟨e, rfl, rfl⟩),
      fun e => hne _ ((decode_eq_byte_iff w _).2 ⟨e, rfl⟩), fun e => hne _ ((decode_eq_tick_iff w).2 e),
      fun e => hne _ ((decode_eq_status_iff w).2 e), fun e => hne _ ((decode_eq_feed_iff w _).2 ⟨e, rfl⟩)⟩
  · rintro ⟨harm, hbyte, htick, hstatus, hfeed⟩
    cases hd : decode w with
    | illegal why => exact ⟨why, rfl⟩
    | legal i =>
      cases i with
      | arm base cap => exact absurd ((decode_eq_arm_iff w base cap).1 hd).1 harm
      | byte b => exact absurd ((decode_eq_byte_iff w b).1 hd).1 hbyte
      | tick => exact absurd ((decode_eq_tick_iff w).1 hd) htick
      | status => exact absurd ((decode_eq_status_iff w).1 hd) hstatus
      | feed b => exact absurd ((decode_eq_feed_iff w b).1 hd).1 hfeed

/-- Settles O3, command by command: the masked word is the command's `op` and zeros, and ILLEGAL is the rest. -/
theorem decodeIsTotalAndExact : Obligations.DecodeIsTotalAndExact := by
  unfold Obligations.DecodeIsTotalAndExact
  exact fun w => ⟨decode_eq_arm_iff w, decode_eq_byte_iff w, decode_eq_tick_iff w, decode_eq_status_iff w,
    decode_eq_feed_iff w, exists_illegal_iff w⟩

end Sys2Proof
end

section
/-! PROOFS. An illegal word at the port (30_encoding.md R79). -/

namespace Sys2Proof.Machine

/-- A step that meets an illegal word answers it and does nothing else. -/
theorem step_of_illegal {s : State} {w : CmdWord} {t : Nat} {rest : List PortEvent} {why : IllegalWord}
    (hp : s.pending = .command w t :: rest) (hd : decode w = .illegal why) :
    step s = .next ({ s.beginEvent rest with now := t } : State).illegalCommand := by
  rw [step_event hp]
  simp only [performEvent, presentWord, hd]

/-- Settles O6: a word of none of the patterns is ILLEGAL, and its step writes outputs, `now` and the order alone. -/
theorem illegalWordAnswersAndChangesNothing : Obligations.IllegalWordAnswersAndChangesNothing := by
  unfold Obligations.IllegalWordAnswersAndChangesNothing
  intro s w t rest hp harm hbyte htick hstatus hfeed
  obtain ⟨why, hd⟩ := (exists_illegal_iff w).2 ⟨harm, hbyte, htick, hstatus, hfeed⟩
  exact ⟨_, step_of_illegal hp hd, congrArg some (by decide), rfl, rfl, rfl, rfl, rfl, rfl, rfl, rfl, rfl, rfl, rfl,
    rfl, rfl, fun _ => rfl, fun _ => rfl⟩

end Sys2Proof.Machine
end

section
/-! PROOFS. The outputs of each command: RESP and READING (30_encoding.md R80 to R82). -/

namespace Sys2Proof.Machine

/-! ## The layout of RESP -/

theorem respWord_extract_value (code : BitVec 4) (value : Half) : (respWord code value).extractLsb' 16 16 = value :=
  BitVec.eq_of_toNat_eq (by
    rw [BitVec.extractLsb'_toNat, Nat.shiftRight_eq_div_pow, respWord_toNat]
    omega)

theorem respWord_extract_zeros (code : BitVec 4) (value : Half) : (respWord code value).extractLsb' 4 12 = 0 :=
  BitVec.eq_of_toNat_eq (by
    rw [BitVec.extractLsb'_toNat, Nat.shiftRight_eq_div_pow, respWord_toNat]
    change _ = 0
    omega)

theorem respWord_extract_code (code : BitVec 4) (value : Half) : (respWord code value).extractLsb' 0 4 = code :=
  BitVec.extractLsb'_append_eq_right

/-! ## The layout of READING -/

/-- One more 16-bit field below those of `x`: how READING is put together. -/
def belowFields {n : Nat} (x : BitVec n) (y : Half) : BitVec (n + 16) := x ++ y

@[simp] theorem belowFields_extract_zero {n : Nat} (x : BitVec n) (y : Half) :
    (belowFields x y).extractLsb' 0 16 = y :=
  BitVec.extractLsb'_append_eq_right

@[simp] theorem belowFields_extract_add {n : Nat} (x : BitVec n) (y : Half) (start : Nat) :
    (belowFields x y).extractLsb' (start + 16) 16 = x.extractLsb' start 16 := by
  rw [belowFields, BitVec.extractLsb'_append_eq_of_le (Nat.le_add_left 16 start), Nat.add_sub_cancel]

theorem pack_eq_belowFields (r : Reading) : r.pack =
    belowFields (belowFields (belowFields (belowFields (belowFields (belowFields (belowFields (belowFields (belowFields
      (belowFields (belowFields r.pm1_0_std r.pm2_5_std) r.pm10_std) r.pm1_0_atm) r.pm2_5_atm) r.pm10_atm)
      r.count_bin0) r.count_bin1) r.count_bin2) r.count_bin3) r.count_bin4) r.count_bin5 := rfl

theorem pack_extract_field (r : Reading) (i : Fin 12) : r.pack.extractLsb' (176 - 16 * i.val) 16 = r.field i := by
  rw [pack_eq_belowFields]
  fin_cases i <;> simp [Reading.field]

/-! ## The outputs of each command -/

section
variable {s t : State}

theorem exec_arm_outputs {base : Addr} {cap : Half} (h : exec (.arm base cap) s = .next t) : t.reading = none ∧
    (t.resp = some (respWord 0x0 0) ∨ t.resp = some (respWord 0x1 0) ∨ t.resp = some (respWord 0x2 0)) := by
  obtain ⟨-, e⟩ | ⟨-, -, e⟩ | ⟨-, -, e⟩ := execArm_cases base cap s <;> (rw [exec, e] at h; cases h; simp)

theorem exec_byte_outputs {b : Byte} (h : exec (.byte b) s = .next t) :
    t.reading = none ∧ t.resp = some (respWord 0x0 0) := by
  obtain ⟨-, e⟩ | ⟨-, -, e⟩ | ⟨-, -, e⟩ := execByte_cases b s <;> (rw [exec, e] at h; cases h; simp)

theorem exec_tick_outputs (h : exec .tick s = .next t) : t.reading = none ∧ t.resp = some (respWord 0x0 0) := by
  obtain ⟨-, e⟩ | ⟨-, e⟩ := execTick_cases s <;> (rw [exec, e] at h; cases h; simp)

theorem exec_status_outputs (h : exec .status s = .next t) : t.reading = none ∧
    (t.resp = some (respWord 0x0 0) ∨ s.rxOut = true ∧ t.resp = some (respWord 0x1 s.rxOutlen)) := by
  obtain ⟨ho, e⟩ | ⟨-, e⟩ := execStatus_cases s
  · rw [exec, e] at h
    cases h
    exact ⟨rfl, .inr ⟨ho, rfl⟩⟩
  · rw [exec, e] at h
    cases h
    exact ⟨rfl, .inl rfl⟩

theorem exec_feed_outputs {b : Byte} (h : exec (.feed b) s = .next t) :
    ∃ out : FeedOutcome, t.reading = readingOf out ∧ t.resp = some (respWord out.code 0) := by
  rw [exec_feed] at h
  cases h
  exact ⟨_, finishFeed_reading _ _, finishFeed_resp _ _⟩

/-- No condition stops a command: every branch of every meaning is a next state. -/
theorem exec_completes (i : Instr) (s : State) : ∃ t, exec i s = .next t := by
  cases i with
  | arm base cap => obtain ⟨-, e⟩ | ⟨-, -, e⟩ | ⟨-, -, e⟩ := execArm_cases base cap s <;> exact ⟨_, e⟩
  | byte b => obtain ⟨-, e⟩ | ⟨-, -, e⟩ | ⟨-, -, e⟩ := execByte_cases b s <;> exact ⟨_, e⟩
  | tick => obtain ⟨-, e⟩ | ⟨-, e⟩ := execTick_cases s <;> exact ⟨_, e⟩
  | status => obtain ⟨-, e⟩ | ⟨-, e⟩ := execStatus_cases s <;> exact ⟨_, e⟩
  | feed b => exact ⟨_, exec_feed b s⟩

theorem exec_responds {i : Instr} (h : exec i s = .next t) :
    ∃ code value, t.resp = some (respWord code value) := by
  cases i with
  | arm base cap =>
    obtain ⟨-, hr | hr | hr⟩ := exec_arm_outputs h <;> exact ⟨_, _, hr⟩
  | byte b => exact ⟨_, _, (exec_byte_outputs h).2⟩
  | tick => exact ⟨_, _, (exec_tick_outputs h).2⟩
  | status =>
    obtain ⟨-, hr | ⟨-, hr⟩⟩ := exec_status_outputs h <;> exact ⟨_, _, hr⟩
  | feed b =>
    obtain ⟨_, -, hr⟩ := exec_feed_outputs h
    exact ⟨_, _, hr⟩

end

/-! ## One response for each command -/

/-- Settles O10: the layout is that of `respWord`, every branch of a command answers once, and so does an illegal
word. -/
theorem everyCommandReturnsOneResponse : Obligations.EveryCommandReturnsOneResponse := by
  unfold Obligations.EveryCommandReturnsOneResponse
  refine ⟨fun code value => ⟨respWord_extract_value code value, respWord_extract_zeros code value,
    respWord_extract_code code value⟩, fun i s => ?_, fun s w t rest why hp hd => ?_⟩
  · obtain ⟨t, h⟩ := exec_completes i s
    obtain ⟨code, value, hr⟩ := exec_responds h
    exact ⟨t, code, value, h, hr⟩
  · exact ⟨_, 0xF, 0, step_of_illegal hp hd, rfl⟩

/-! ## The codes of each command -/

theorem code_toNat_le (out : FeedOutcome) : out.code.toNat ≤ 5 := by
  cases out <;> simp [FeedOutcome.code]

/-- Settles O11 from the outputs of each command; the invariant bounds the length that DATA reports. -/
theorem commandsReturnOnlyTheirCodes : Obligations.CommandsReturnOnlyTheirCodes := by
  unfold Obligations.CommandsReturnOnlyTheirCodes
  refine ⟨fun s t i hinv h => ?_, fun s w t rest why hp hd => ⟨_, step_of_illegal hp hd, rfl⟩⟩
  cases i with
  | arm base cap => exact (exec_arm_outputs h).2
  | byte b => exact (exec_byte_outputs h).2
  | tick => exact (exec_tick_outputs h).2
  | status =>
    obtain ⟨-, hr | ⟨ho, hr⟩⟩ := exec_status_outputs h
    · exact .inl hr
    · obtain ⟨-, hout, -⟩ := hinv
      obtain ⟨-, hlen, -⟩ := hout ho
      exact .inr ⟨_, hlen, rfl, hr⟩
  | feed b =>
    obtain ⟨out, -, hr⟩ := exec_feed_outputs h
    exact ⟨out.code, code_toNat_le out, hr⟩

/-! ## When READING is driven -/

theorem readingOf_isSome_iff (out : FeedOutcome) : (readingOf out).isSome = true ↔ out.code = 0x1 := by
  cases out <;> simp [readingOf, FeedOutcome.code]

theorem exec_reading_none {i : Instr} {s t : State} (hi : ∀ b, i ≠ .feed b) (h : exec i s = .next t) :
    t.reading = none := by
  cases i with
  | arm base cap => exact (exec_arm_outputs h).1
  | byte b => exact (exec_byte_outputs h).1
  | tick => exact (exec_tick_outputs h).1
  | status => exact (exec_status_outputs h).1
  | feed b => exact absurd rfl (hi b)

/-- A FEED drives READING exactly when it answers OK. -/
theorem exec_feed_reading_isSome_iff {b : Byte} {s t : State} (h : exec (.feed b) s = .next t) :
    t.reading.isSome = true ↔ t.resp = some 0x00000001#32 := by
  obtain ⟨out, hread, hresp⟩ := exec_feed_outputs h
  rw [hread, hresp, readingOf_isSome_iff, Option.some_inj, show 0x00000001#32 = respWord 0x1 0 by decide, respWord_inj,
    and_iff_left rfl]

/-- Settles O12: a FEED drives READING with its code OK, and nothing else drives it. -/
theorem readingStandsOnlyWithOk : Obligations.ReadingStandsOnlyWithOk := by
  unfold Obligations.ReadingStandsOnlyWithOk
  refine ⟨pack_extract_field, fun i s t h => ?_, fun s w t rest why hp hd => ⟨_, step_of_illegal hp hd, rfl⟩⟩
  by_cases hi : ∃ b, i = .feed b
  · obtain ⟨b, rfl⟩ := hi
    rw [exec_feed_reading_isSome_iff h, and_iff_right ⟨b, rfl⟩]
  · have hread := exec_reading_none (not_exists.1 hi) h
    simp [hread, hi]

end Sys2Proof.Machine
end

section
/-! PROOFS. The engine's four commands against their rules (40_reception_engine.md R101 to R104). -/

namespace Sys2Proof.Machine

/-! ## The engine's responses, as words (30_encoding.md R80, R81) -/

theorem respond_eq_of_respWord {c : BitVec 4} {v : Half} {w : RespWord} (h : respWord c v = w) (s : State) :
    s.respond c v = { s with resp := some w, reading := none } := by
  rw [State.respond, h]

/-- ACK, NONE and ARMED: code 0, value 0. -/
theorem respond_zero_eq (s : State) : s.respond 0x0 0 = { s with resp := some 0x00000000#32, reading := none } :=
  respond_eq_of_respWord (by decide) s

theorem respond_alreadyArmed_eq (s : State) :
    s.respond 0x1 0 = { s with resp := some 0x00000001#32, reading := none } :=
  respond_eq_of_respWord (by decide) s

theorem respond_invalidDescriptor_eq (s : State) :
    s.respond 0x2 0 = { s with resp := some 0x00000002#32, reading := none } :=
  respond_eq_of_respWord (by decide) s

/-- DATA(n): the length above code 1. -/
theorem respond_data_eq (s : State) (n : Half) :
    s.respond 0x1 n = { s with resp := some (n ++ 0x0001#16), reading := none } :=
  respond_eq_of_respWord (BitVec.eq_of_toNat_eq (by rw [respWord_toNat, append_toNat 16 16]; rfl)) s

/-! ## The tests of R101 and R103 -/

theorem invalidDescriptor_iff (cfg : Config) (base : Addr) (cap : Half) :
    invalidDescriptor cfg base cap = true ↔ base = 0 ∨ cap = 0 ∨ cap.toNat > cfg.maxXfer := by
  simp [invalidDescriptor, or_assoc]

/-- Only an armed request completes at a TICK. -/
theorem timesOut_eq_false_of_not_armed {s : State} (ha : s.armed = false) : s.timesOut = false := by
  simp [State.timesOut, ha]

/-! ## ARM, BYTE and TICK -/

/-- Settles O17, refusal by refusal in the order of R101. -/
theorem armFollowsItsRule : Obligations.ArmFollowsItsRule := by
  unfold Obligations.ArmFollowsItsRule
  intro base cap s
  rw [exec]
  obtain ⟨ha, e⟩ | ⟨ha, hd, e⟩ | ⟨ha, hd, e⟩ := execArm_cases base cap s
  · rw [e, if_pos ha, respond_alreadyArmed_eq]
  · rw [e, if_neg (by simp [ha]), if_pos ((invalidDescriptor_iff _ _ _).1 hd), respond_invalidDescriptor_eq]
  · have hv := mt (invalidDescriptor_iff _ _ _).2 (Bool.eq_false_iff.1 hd)
    rw [e, if_neg (by simp [ha]), if_neg hv, respond_zero_eq]
    rfl

/-- Settles O18: the byte is discarded, fills the buffer, or only moves the request on. -/
theorem byteFollowsItsRule : Obligations.ByteFollowsItsRule := by
  unfold Obligations.ByteFollowsItsRule
  intro b s
  rw [exec]
  obtain ⟨ha, e⟩ | ⟨ha, hf, e⟩ | ⟨ha, hf, e⟩ := execByte_cases b s
  · rw [e, if_pos ha, respond_zero_eq]
  · rw [e, if_neg (by simp [ha]), if_pos hf, respond_zero_eq]
    rfl
  · rw [e, if_neg (by simp [ha]), if_neg hf, respond_zero_eq]
    rfl

/-- Settles O20: the request times out by R103's condition, or TICK only answers. -/
theorem tickFollowsItsRule : Obligations.TickFollowsItsRule := by
  unfold Obligations.TickFollowsItsRule
  intro s
  rw [exec]
  obtain ⟨ht, e⟩ | ⟨ht, e⟩ := execTick_cases s
  · rw [e, if_pos ((timesOut_iff s).1 ht), respond_zero_eq]
    rfl
  · rw [e, if_neg (mt (timesOut_iff s).2 (Bool.eq_false_iff.1 ht)), respond_zero_eq]

/-! ## STATUS, and how long its answer lasts -/

theorem exec_status_eq (s : State) : exec .status s = .next (
    if s.rxOut = true then { s with resp := some (s.rxOutlen ++ 0x0001#16), reading := none }
    else { s with resp := some 0x00000000#32, reading := none }) := by
  rw [exec]
  obtain ⟨ho, e⟩ | ⟨ho, e⟩ := execStatus_cases s
  · rw [e, if_pos ho, respond_data_eq]
  · rw [e, if_neg (by simp [ho]), respond_zero_eq]

/-- With no request armed only an ARM arms one or touches the outcome: BYTE and TICK have nothing to complete. -/
theorem exec_keeps_outcome_of_not_armed {i : Instr} {s t : State} (hi : notArm i = true) (ha : s.armed = false)
    (h : exec i s = .next t) : t.armed = false ∧ t.rxOut = s.rxOut ∧ t.rxOutlen = s.rxOutlen := by
  cases i with
  | arm base cap => cases hi
  | byte b =>
    obtain ⟨-, e⟩ | ⟨harmed, -⟩ | ⟨harmed, -⟩ := execByte_cases b s
    · rw [exec, e] at h
      cases h
      exact ⟨ha, rfl, rfl⟩
    · simp [ha] at harmed
    · simp [ha] at harmed
  | tick =>
    obtain ⟨ht, -⟩ | ⟨-, e⟩ := execTick_cases s
    · simp [timesOut_eq_false_of_not_armed ha] at ht
    · rw [exec, e] at h
      cases h
      exact ⟨ha, rfl, rfl⟩
  | status => obtain ⟨-, e⟩ | ⟨-, e⟩ := execStatus_cases s <;> (rw [exec, e] at h; cases h; exact ⟨ha, rfl, rfl⟩)
  | feed b =>
    have f := exec_feed_parserOnly h
    exact ⟨f.armed.trans ha, f.rxOut, f.rxOutlen⟩

/-- Settles O21: under the engine's invariant a reported outcome leaves no request armed, so nothing but an ARM can
change it. -/
theorem statusFollowsItsRule : Obligations.StatusFollowsItsRule := by
  unfold Obligations.StatusFollowsItsRule
  refine ⟨exec_status_eq, fun i s t hinv hi ho h => ?_⟩
  obtain ⟨-, hout, -⟩ := hinv
  obtain ⟨ha, -⟩ := hout ho
  obtain ⟨-, hrxOut, hrxOutlen⟩ := exec_keeps_outcome_of_not_armed hi ha h
  exact ⟨hrxOut.trans ho, hrxOutlen⟩

end Sys2Proof.Machine
end

section
/-! PROOFS. The parser's guard and its seven stages against their rules (41_frame_parser.md R132 to R139). -/

namespace Sys2Proof.Machine

section
variable (b : Byte) (s : State)

/-! ## What each stage rule can do, said once -/

theorem stageAwaitSync1_sync : stageAwaitSync1 0x42 s =
    ({ s.fbWrite 0 0x42 with pIdx := 1, pAcc := 0x0042, pStage := .awaitSync2 }, .pending) := if_pos rfl

theorem stageAwaitSync1_of_ne {b : Byte} (h : b ≠ 0x42) : stageAwaitSync1 b s = (s, .pending) := if_neg h

/-- A byte fed in AwaitSync1 is taken or discarded, and the answer is PENDING either way (R133). -/
theorem stageAwaitSync1_outcome : (stageAwaitSync1 b s).2 = .pending := by
  by_cases hb : b = 0x42
  · rw [hb, stageAwaitSync1_sync]
  · rw [stageAwaitSync1_of_ne s hb]

/-- AwaitSync2 takes sync-2, takes a rejected 0x42 as a new sync-1, or starts the search again (R134). -/
theorem stageAwaitSync2_cases :
    (b = 0x4D ∧ stageAwaitSync2 b s =
      ({ s.fbPush 0x4D with pAcc := addByte s.pAcc 0x4D, pStage := .readLenHi }, .pending))
    ∨ (b = 0x42 ∧ stageAwaitSync2 b s = ((stageAwaitSync1 0x42 s.parserReset).1, .invalidSync))
    ∨ (b ≠ 0x4D ∧ b ≠ 0x42 ∧ stageAwaitSync2 b s = (s.parserReset, .invalidSync)) := by
  by_cases h2 : b = 0x4D
  · exact .inl ⟨h2, if_pos h2⟩
  · by_cases h1 : b = 0x42
    · subst h1
      exact .inr (.inl ⟨rfl, rfl⟩)
    · exact .inr (.inr ⟨h2, h1, by rw [stageAwaitSync2, if_neg h2, if_neg h1]⟩)

/-- ReadLenLo refuses LEN, or goes to the checksum or to the data bytes (R136). -/
theorem stageReadLenLo_cases :
    (badLength s.cfg (s.takeLenLo b).pLen = true
      ∧ stageReadLenLo b s = ((s.takeLenLo b).parserReset, .invalidLength))
    ∨ (badLength s.cfg (s.takeLenLo b).pLen = false ∧ stageReadLenLo b s =
      ({ s.takeLenLo b with
        pStage := if (s.takeLenLo b).pLen = 2 ∧ s.cfg.zeroData = .skipData then .readChecksumHi else .readData },
        .pending)) := by
  cases hl : badLength s.cfg (s.takeLenLo b).pLen with
  | true => exact .inl ⟨rfl, if_pos hl⟩
  | false =>
    have hok := Bool.eq_false_iff.1 hl
    refine .inr ⟨rfl, ?_⟩
    by_cases hp : (s.takeLenLo b).pLen = 2 ∧ s.cfg.zeroData = .skipData
    · rw [if_pos hp]
      exact (if_neg hok).trans (if_pos hp)
    · rw [if_neg hp]
      exact (if_neg hok).trans (if_neg hp)

/-- ReadData takes the byte and leaves the stage only when the data bytes are complete (R137). -/
theorem stageReadData_eq : stageReadData b s =
    ({ s.takeData b with pStage := if (s.takeData b).dataComplete = true then .readChecksumHi else s.pStage },
      .pending) := by
  by_cases hd : (s.takeData b).dataComplete = true
  · rw [if_pos hd]
    exact if_pos hd
  · rw [if_neg hd]
    exact if_neg hd

/-- The checksum validator's three outcomes, each of which resets the parser (R139). -/
theorem stageReadChecksumLo_cases :
    ((s.fbPush b).receivedChecksum ≠ s.pAcc
      ∧ stageReadChecksumLo b s = ((s.fbPush b).parserReset, .checksumError))
    ∨ ((s.fbPush b).receivedChecksum = s.pAcc ∧ s.pLen.toNat < 28
      ∧ stageReadChecksumLo b s = ((s.fbPush b).parserReset, .invalidLength))
    ∨ ((s.fbPush b).receivedChecksum = s.pAcc ∧ 28 ≤ s.pLen.toNat
      ∧ stageReadChecksumLo b s = ((s.fbPush b).parserReset, .ok (s.fbPush b).decodeReading)) := by
  by_cases hc : (s.fbPush b).receivedChecksum = s.pAcc
  · by_cases hl : 28 ≤ s.pLen.toNat
    · exact .inr (.inr ⟨hc, hl, (if_pos hc).trans (if_pos hl)⟩)
    · exact .inr (.inl ⟨hc, by omega, (if_pos hc).trans (if_neg hl)⟩)
  · exact .inl ⟨hc, if_neg hc⟩

/-! ## The received checksum and the reading -/

theorem fbPush_pushed : Pushed s (s.fbPush b) b := ⟨rfl, rfl⟩

/-- The two bytes stored last: the one below the write index, and the byte being stored. -/
theorem fbPush_receivedChecksum {s : State} (h : 1 ≤ s.pIdx.toNat) (hi : s.pIdx.toNat < s.cfg.frameCap)
    (hc : s.cfg.frameCap ≤ 65539) : (s.fbPush b).receivedChecksum = be16 (s.fbByte (s.pIdx.toNat - 1)) b := by
  have hp := fbPush_pushed b s
  rw [State.receivedChecksum, fbPush_pIdx, pIdx_succ hc hi, Nat.add_sub_add_right _ 1 1, Nat.add_sub_cancel,
    hp.stored, hp.below (by omega)]

/-- Field `i` of a decoded reading is read at offset `4 + 2i` (R141). -/
theorem decodeReading_field (i : Fin 12) : s.decodeReading.field i = s.fbField i.val := by
  fin_cases i <;> rfl

end

/-! ## The guard -/

/-- Settles O36: the guard's branch of FEED, and the one stage that the guard does not cover. -/
theorem overflowGuardResetsAndDropsTheByte : Obligations.OverflowGuardResetsAndDropsTheByte := by
  unfold Obligations.OverflowGuardResetsAndDropsTheByte
  refine fun b s => ⟨fun hs hi => ?_, fun hs => ⟨_, exec_feed_of_no_guard b s (.inl hs), ?_⟩⟩
  · rw [exec_feed, feedStep_of_guard b ((overflows_iff s).2 ⟨hs, hi⟩), finishFeed_bufferOverflow_eq]
    rfl
  · rw [stageStep_awaitSync1 hs, stageAwaitSync1_outcome, finishFeed_pending_eq]

/-! ## The search for sync -/

/-- Settles O37, by the byte: the sync-1 byte or any other. -/
theorem awaitSync1FollowsItsRule : Obligations.AwaitSync1FollowsItsRule := by
  unfold Obligations.AwaitSync1FollowsItsRule
  intro b s hs
  rw [exec_feed_of_no_guard b s (.inl hs), stageStep_awaitSync1 hs]
  by_cases hb : b = 0x42
  · rw [hb, stageAwaitSync1_sync, finishFeed_pending_eq, if_pos rfl]
    rfl
  · rw [stageAwaitSync1_of_ne s hb, finishFeed_pending_eq, if_neg hb]

/-- Settles O38: sync-2, the re-entry with a rejected 0x42, or a new search. -/
theorem awaitSync2FollowsItsRule : Obligations.AwaitSync2FollowsItsRule := by
  unfold Obligations.AwaitSync2FollowsItsRule
  intro b s hs hi
  rw [exec_feed_of_no_guard b s (.inr hi), stageStep_awaitSync2 hs]
  obtain ⟨hb, e⟩ | ⟨rfl, e⟩ | ⟨h2, h1, e⟩ := stageAwaitSync2_cases b s
  · rw [e, finishFeed_pending_eq, if_pos hb]
    rfl
  · rw [e, stageAwaitSync1_sync, finishFeed_invalidSync_eq, if_neg (by decide), if_pos rfl]
    rfl
  · rw [e, finishFeed_invalidSync_eq, if_neg h2, if_neg h1]
    rfl

/-! ## The length field -/

/-- Settles O39: the stage has one branch. -/
theorem readLenHiFollowsItsRule : Obligations.ReadLenHiFollowsItsRule := by
  unfold Obligations.ReadLenHiFollowsItsRule
  intro b s hs hi
  rw [exec_feed_of_no_guard b s (.inr hi), stageStep_readLenHi hs, stageReadLenHi, finishFeed_pending_eq]
  rfl

/-- Settles O40: LEN fails the length check, or the stage goes on by the LEN = 2 policy. -/
theorem readLenLoFollowsItsRule : Obligations.ReadLenLoFollowsItsRule := by
  unfold Obligations.ReadLenLoFollowsItsRule
  rintro b s _ hs hi rfl
  rw [exec_feed_of_no_guard b s (.inr hi), stageStep_readLenLo hs]
  have hbad := badLength_iff s.cfg (s.pLen.extractLsb' 8 8 ++ b)
  obtain ⟨hl, e⟩ | ⟨hl, e⟩ := stageReadLenLo_cases b s
  · rw [e, finishFeed_invalidLength_eq, if_pos (hbad.1 hl)]
    rfl
  · rw [e, finishFeed_pending_eq, if_neg (mt hbad.2 (Bool.eq_false_iff.1 hl))]
    rfl

/-! ## The data bytes and the checksum -/

/-- Settles O41: the end of the data bytes decides the next stage. -/
theorem readDataFollowsItsRule : Obligations.ReadDataFollowsItsRule := by
  unfold Obligations.ReadDataFollowsItsRule
  intro b s hs hi
  rw [exec_feed_of_no_guard b s (.inr hi), stageStep_readData hs, stageReadData_eq, finishFeed_pending_eq, hs]
  simp only [dataComplete_iff]
  rfl

/-- Settles O42: the stage has one branch, and it leaves the accumulator. -/
theorem readChecksumHiFollowsItsRule : Obligations.ReadChecksumHiFollowsItsRule := by
  unfold Obligations.ReadChecksumHiFollowsItsRule
  intro b s hs hi
  rw [exec_feed_of_no_guard b s (.inr hi), stageStep_readChecksumHi hs, stageReadChecksumHi, finishFeed_pending_eq]
  rfl

/-- Settles O43, by the validator's three outcomes; the reading is decoded from the bytes that the reset leaves in
FB. -/
theorem readChecksumLoFollowsItsRule : Obligations.ReadChecksumLoFollowsItsRule := by
  unfold Obligations.ReadChecksumLoFollowsItsRule
  intro b s hs h1 hi hc
  rw [exec_feed_of_no_guard b s (.inr hi), stageStep_readChecksumLo hs]
  have hcases := stageReadChecksumLo_cases b s
  rw [fbPush_receivedChecksum b h1 hi hc] at hcases
  obtain ⟨hsum, e⟩ | ⟨hsum, hl, e⟩ | ⟨hsum, hl, e⟩ := hcases
  · rw [e, finishFeed_checksumError_eq]
    exact ⟨_, rfl, rfl, fun _ => ⟨rfl, rfl⟩, fun heq => absurd heq hsum, fun heq => absurd heq hsum⟩
  · rw [e, finishFeed_invalidLength_eq]
    exact ⟨_, rfl, rfl, fun hne => absurd hsum hne, fun _ _ => ⟨rfl, rfl⟩, fun _ hlong => absurd hlong (by omega)⟩
  · rw [e, finishFeed_ok_eq]
    exact ⟨_, rfl, rfl, fun hne => absurd hsum hne, fun _ hshort => absurd hshort (by omega),
      fun _ _ => ⟨rfl, _, rfl, decodeReading_field (s.fbPush b)⟩⟩

end Sys2Proof.Machine
end

section
/-! PROOFS. The reset input (70_reset_and_hazards.md R210). -/

namespace Sys2Proof.Machine

/-- A step that meets the reset input ends in the reset state; host memory, the parameters, the `now` input and the
rest of the order are kept. -/
theorem step_of_rst {s : State} {rest : List PortEvent} (hp : s.pending = .rst :: rest) :
    step s = .next
      { State.resetWith s.cfg with mem := s.mem, resets := s.resets + 1, now := s.now, pending := rest } := by
  rw [step_event hp]
  simp [performEvent]

/-- Settles O15: the step ends in the reset state beside the host memory it found. -/
theorem resetInputRestoresEveryRegister : Obligations.ResetInputRestoresEveryRegister := by
  unfold Obligations.ResetInputRestoresEveryRegister
  intro s rest hp
  exact ⟨_, step_of_rst hp, rfl, rfl, rfl, rfl, rfl, rfl, rfl, rfl, rfl, rfl, rfl, rfl, rfl, rfl, rfl,
    hostByte_congr rfl⟩

end Sys2Proof.Machine
end

section
/-! PROOFS. Decoding and encoding are inverse to each other (30_encoding.md R71 to R83). -/

namespace Sys2Proof

/-- The masks of the opcode table as numbers: what lies above bit 48 in format A, and above bit 8 in format B. -/
theorem and_maskA_toNat (w : CmdWord) : (w &&& 0xFFFF000000000000#64).toNat = w.toNat / 2 ^ 48 * 2 ^ 48 :=
  and_highMask_toNat w 48

theorem and_maskB_toNat (w : CmdWord) : (w &&& 0xFFFFFFFFFFFFFF00#64).toNat = w.toNat / 2 ^ 8 * 2 ^ 8 :=
  and_highMask_toNat w 8

/-- A word decodes to a command exactly if it is that command's encoding: on both sides the word is the same number,
split into the fields of its format. -/
theorem decode_eq_legal_iff_encode_eq (w : CmdWord) (i : Instr) : decode w = .legal i ↔ encode i = w := by
  rw [← BitVec.toNat_inj, encode_toNat]
  cases i with
  | arm base cap =>
    rw [decode_eq_arm_iff]
    simp only [← BitVec.toNat_inj, and_maskA_toNat, BitVec.extractLsb'_toNat, BitVec.toNat_ofNat,
      Nat.shiftRight_eq_div_pow]
    omega
  | byte b =>
    rw [decode_eq_byte_iff]
    simp only [← BitVec.toNat_inj, and_maskB_toNat, BitVec.extractLsb'_toNat, BitVec.toNat_ofNat,
      Nat.shiftRight_eq_div_pow]
    omega
  | tick =>
    rw [decode_eq_tick_iff, ← BitVec.toNat_inj]
    exact eq_comm
  | status =>
    rw [decode_eq_status_iff, ← BitVec.toNat_inj]
    exact eq_comm
  | feed b =>
    rw [decode_eq_feed_iff]
    simp only [← BitVec.toNat_inj, and_maskB_toNat, BitVec.extractLsb'_toNat, BitVec.toNat_ofNat,
      Nat.shiftRight_eq_div_pow]
    omega

@[simp] theorem decode_encode (i : Instr) : decode (encode i) = .legal i :=
  (decode_eq_legal_iff_encode_eq _ i).2 rfl

/-- Settles O1: the encoding of a command is the word that decodes to it. -/
theorem decodeOfEncodeIsTheCommand : Obligations.DecodeOfEncodeIsTheCommand := by
  unfold Obligations.DecodeOfEncodeIsTheCommand
  exact decode_encode

/-- Settles O2: the word that decodes to a command is its encoding. -/
theorem encodeOfDecodedIsTheWord : Obligations.EncodeOfDecodedIsTheWord := by
  unfold Obligations.EncodeOfDecodedIsTheWord
  exact fun w i => (decode_eq_legal_iff_encode_eq w i).1

/-- Settles O4 by running the decoder on each of the nine words. -/
theorem wordsWrittenOutDecode : Obligations.WordsWrittenOutDecode := by
  unfold Obligations.WordsWrittenOutDecode
  decide

end Sys2Proof
end

section
/-! PROOFS. What one command can do, said once: to the engine, to the parser, and beside its other inputs. -/

namespace Sys2Proof.Machine

/-! ## The two halves of the state -/

/-- The engine's registers, its parameters and host memory are the same in both states. -/
structure EngineSame (s t : State) : Prop where
  cfg : t.cfg = s.cfg
  armed : t.armed = s.armed
  rxBase : t.rxBase = s.rxBase
  rxN : t.rxN = s.rxN
  rxIdx : t.rxIdx = s.rxIdx
  rxLast : t.rxLast = s.rxLast
  rxOut : t.rxOut = s.rxOut
  rxOutlen : t.rxOutlen = s.rxOutlen
  mem : t.mem = s.mem

/-- The parser's registers, its parameters and what FB is read from are the same in both states. -/
structure ParserSame (s t : State) : Prop where
  cfg : t.cfg = s.cfg
  pStage : t.pStage = s.pStage
  pIdx : t.pIdx = s.pIdx
  pLen : t.pLen = s.pLen
  pAcc : t.pAcc = s.pAcc
  fb : t.fb = s.fb
  resets : t.resets = s.resets

theorem EngineSame.trans {s t u : State} (h : EngineSame s t) (k : EngineSame t u) : EngineSame s u where
  cfg := k.cfg.trans h.cfg
  armed := k.armed.trans h.armed
  rxBase := k.rxBase.trans h.rxBase
  rxN := k.rxN.trans h.rxN
  rxIdx := k.rxIdx.trans h.rxIdx
  rxLast := k.rxLast.trans h.rxLast
  rxOut := k.rxOut.trans h.rxOut
  rxOutlen := k.rxOutlen.trans h.rxOutlen
  mem := k.mem.trans h.mem

theorem EngineSame.refl (s : State) : EngineSame s s := ⟨rfl, rfl, rfl, rfl, rfl, rfl, rfl, rfl, rfl⟩

/-- Another value at the `now` input is no change of the engine. -/
theorem EngineSame.now_left {s t : State} {n : Nat} (h : EngineSame { s with now := n } t) : EngineSame s t :=
  ⟨h.cfg, h.armed, h.rxBase, h.rxN, h.rxIdx, h.rxLast, h.rxOut, h.rxOutlen, h.mem⟩

theorem ParserOnly.engineSame {s t : State} (h : ParserOnly s t) : EngineSame s t :=
  ⟨h.cfg, h.armed, h.rxBase, h.rxN, h.rxIdx, h.rxLast, h.rxOut, h.rxOutlen, h.mem⟩

theorem EngineSame.hostByte {s t : State} (h : EngineSame s t) (a : Addr) : t.hostByte a = s.hostByte a :=
  hostByte_congr h.mem a

theorem ParserSame.fbByte {s t : State} (h : ParserSame s t) (j : Nat) : t.fbByte j = s.fbByte j :=
  fbByte_congr h.fb h.resets j

/-! ## The engine -/

/-- What a command can do to the engine: nothing, or one of the four writes of 40_reception_engine.md R101 to R103. A
BYTE does nothing only while no request is armed. -/
inductive EngineCase : Instr → State → State → Prop
  | quiet {i : Instr} {s t : State} (same : EngineSame s t) (hbyte : ∀ b, i = .byte b → s.armed = false) :
    EngineCase i s t
  | accepted {base : Addr} {cap : Half} {s : State} (ha : s.armed = false) (hbase : base ≠ 0) (hcap : cap ≠ 0)
      (hmax : cap.toNat ≤ s.cfg.maxXfer) :
    EngineCase (.arm base cap) s ((s.armWith base cap).respond 0x0 0)
  | stored {b : Byte} {s : State} (ha : s.armed = true) (hn : s.rxIdx + 1 ≠ s.rxN) :
    EngineCase (.byte b) s ((s.storeReceived b).respond 0x0 0)
  | filled {b : Byte} {s : State} (ha : s.armed = true) (hn : s.rxIdx + 1 = s.rxN) :
    EngineCase (.byte b) s (((s.storeReceived b).completeWith s.rxN).respond 0x0 0)
  | timedOut {s : State} (ha : s.armed = true) (hidx : 0 < s.rxIdx.toNat)
      (hidle : s.rxLast + s.cfg.idleTimeout ≤ s.now) :
    EngineCase .tick s ((s.completeWith s.rxIdx).respond 0x0 0)

theorem respond_engineSame (s : State) (c : BitVec 4) (v : Half) : EngineSame s (s.respond c v) :=
  ⟨rfl, rfl, rfl, rfl, rfl, rfl, rfl, rfl, rfl⟩

theorem exec_engineCase {i : Instr} {s t : State} (h : exec i s = .next t) : EngineCase i s t := by
  cases i with
  | arm base cap =>
    obtain ⟨-, e⟩ | ⟨-, -, e⟩ | ⟨ha, hd, e⟩ := execArm_cases base cap s <;> (rw [exec, e] at h; cases h)
    · exact .quiet (respond_engineSame ..) (by simp)
    · exact .quiet (respond_engineSame ..) (by simp)
    · obtain ⟨hbase, hcap, hmax⟩ := (invalidDescriptor_false_iff _ _ _).1 hd
      exact .accepted ha hbase hcap hmax
  | byte b =>
    obtain ⟨ha, e⟩ | ⟨ha, hn, e⟩ | ⟨ha, hn, e⟩ := execByte_cases b s <;> (rw [exec, e] at h; cases h)
    · exact .quiet (respond_engineSame ..) fun _ _ => ha
    · exact .filled ha hn
    · exact .stored ha hn
  | tick =>
    obtain ⟨ht, e⟩ | ⟨-, e⟩ := execTick_cases s <;> (rw [exec, e] at h; cases h)
    · obtain ⟨ha, hidx, hidle⟩ := (timesOut_iff s).1 ht
      exact .timedOut ha hidx hidle
    · exact .quiet (respond_engineSame ..) (by simp)
  | status =>
    obtain ⟨-, e⟩ | ⟨-, e⟩ := execStatus_cases s <;> (rw [exec, e] at h; cases h)
    · exact .quiet (respond_engineSame ..) (by simp)
    · exact .quiet (respond_engineSame ..) (by simp)
  | feed b => exact .quiet (exec_feed_parserOnly h).engineSame (by simp)

/-- With no request armed, only an ARM does anything to the engine. -/
theorem exec_engineSame_of_not_armed {i : Instr} {s t : State} (hi : notArm i = true) (ha : s.armed = false)
    (h : exec i s = .next t) : EngineSame s t := by
  cases exec_engineCase h with
  | quiet same _ => exact same
  | accepted => cases hi
  | stored harmed | filled harmed | timedOut harmed => rw [ha] at harmed; cases harmed

/-! ## The parser -/

/-- The engine's commands do nothing to the parser (40_reception_engine.md R108). -/
theorem exec_parserSame {i : Instr} {s t : State} (hi : ∀ b, i ≠ .feed b) (h : exec i s = .next t) :
    ParserSame s t := by
  cases i with
  | arm base cap =>
    obtain ⟨-, e⟩ | ⟨-, -, e⟩ | ⟨-, -, e⟩ := execArm_cases base cap s <;>
      (rw [exec, e] at h; cases h; exact ⟨rfl, rfl, rfl, rfl, rfl, rfl, rfl⟩)
  | byte b =>
    obtain ⟨-, e⟩ | ⟨-, -, e⟩ | ⟨-, -, e⟩ := execByte_cases b s <;>
      (rw [exec, e] at h; cases h; exact ⟨rfl, rfl, rfl, rfl, rfl, rfl, rfl⟩)
  | tick =>
    obtain ⟨-, e⟩ | ⟨-, e⟩ := execTick_cases s <;>
      (rw [exec, e] at h; cases h; exact ⟨rfl, rfl, rfl, rfl, rfl, rfl, rfl⟩)
  | status =>
    obtain ⟨-, e⟩ | ⟨-, e⟩ := execStatus_cases s <;>
      (rw [exec, e] at h; cases h; exact ⟨rfl, rfl, rfl, rfl, rfl, rfl, rfl⟩)
  | feed b => exact absurd rfl (hi b)

/-- What one FEED can do: the guard drops the byte (41_frame_parser.md R132), or the stage's rule runs (R133 to
R139). -/
inductive FeedCase (b : Byte) (s : State) : State × FeedOutcome → Prop
  | dropped (hs : s.pStage ≠ .awaitSync1) (hi : s.cfg.frameCap ≤ s.pIdx.toNat) :
    FeedCase b s (s.parserReset, .bufferOverflow)
  | sync1 (hs : s.pStage = .awaitSync1) (hb : b = 0x42) :
    FeedCase b s ({ s.fbWrite 0 0x42 with pIdx := 1, pAcc := 0x0042, pStage := .awaitSync2 }, .pending)
  | discarded (hs : s.pStage = .awaitSync1) (hb : b ≠ 0x42) : FeedCase b s (s, .pending)
  | sync2 (hs : s.pStage = .awaitSync2) (hi : s.pIdx.toNat < s.cfg.frameCap) (hb : b = 0x4D) :
    FeedCase b s ({ s.fbPush 0x4D with pAcc := addByte s.pAcc 0x4D, pStage := .readLenHi }, .pending)
  | resync (hs : s.pStage = .awaitSync2) (hi : s.pIdx.toNat < s.cfg.frameCap) (hb : b = 0x42) :
    FeedCase b s ({ s.parserReset.fbWrite 0 0x42 with pIdx := 1, pAcc := 0x0042, pStage := .awaitSync2 },
      .invalidSync)
  | badSync (hs : s.pStage = .awaitSync2) (hi : s.pIdx.toNat < s.cfg.frameCap) (h2 : b ≠ 0x4D) (h1 : b ≠ 0x42) :
    FeedCase b s (s.parserReset, .invalidSync)
  | lenHi (hs : s.pStage = .readLenHi) (hi : s.pIdx.toNat < s.cfg.frameCap) :
    FeedCase b s ({ s.fbPush b with pAcc := addByte s.pAcc b, pLen := be16 b 0x00, pStage := .readLenLo }, .pending)
  | badLen (hs : s.pStage = .readLenLo) (hi : s.pIdx.toNat < s.cfg.frameCap)
      (hl : badLength s.cfg (s.takeLenLo b).pLen = true) :
    FeedCase b s ((s.takeLenLo b).parserReset, .invalidLength)
  | goodLen (hs : s.pStage = .readLenLo) (hi : s.pIdx.toNat < s.cfg.frameCap)
      (hl : badLength s.cfg (s.takeLenLo b).pLen = false) :
    FeedCase b s ({ s.takeLenLo b with
      pStage := if (s.takeLenLo b).pLen = 2 ∧ s.cfg.zeroData = .skipData then .readChecksumHi else .readData },
      .pending)
  | data (hs : s.pStage = .readData) (hi : s.pIdx.toNat < s.cfg.frameCap) :
    FeedCase b s ({ s.takeData b with
      pStage := if (s.takeData b).dataComplete = true then .readChecksumHi else .readData }, .pending)
  | checksumHi (hs : s.pStage = .readChecksumHi) (hi : s.pIdx.toNat < s.cfg.frameCap) :
    FeedCase b s ({ s.fbPush b with pStage := .readChecksumLo }, .pending)
  | badChecksum (hs : s.pStage = .readChecksumLo) (hi : s.pIdx.toNat < s.cfg.frameCap)
      (hc : (s.fbPush b).receivedChecksum ≠ s.pAcc) :
    FeedCase b s ((s.fbPush b).parserReset, .checksumError)
  | shortFrame (hs : s.pStage = .readChecksumLo) (hi : s.pIdx.toNat < s.cfg.frameCap)
      (hc : (s.fbPush b).receivedChecksum = s.pAcc) (hl : s.pLen.toNat < 28) :
    FeedCase b s ((s.fbPush b).parserReset, .invalidLength)
  | validFrame (hs : s.pStage = .readChecksumLo) (hi : s.pIdx.toNat < s.cfg.frameCap)
      (hc : (s.fbPush b).receivedChecksum = s.pAcc) (hl : 28 ≤ s.pLen.toNat) :
    FeedCase b s ((s.fbPush b).parserReset, .ok (s.fbPush b).decodeReading)

theorem feedStep_awaitSync1_case {b : Byte} {s : State} (hs : s.pStage = .awaitSync1) :
    FeedCase b s (feedStep b s) := by
  rw [feedStep_of_no_guard b (.inl hs), stageStep_awaitSync1 hs]
  by_cases hb : b = 0x42
  · rw [hb, stageAwaitSync1_sync]
    exact .sync1 hs rfl
  · rw [stageAwaitSync1_of_ne s hb]
    exact .discarded hs hb

theorem feedStep_case (b : Byte) (s : State) : FeedCase b s (feedStep b s) := by
  by_cases h1 : s.pStage = .awaitSync1
  · exact feedStep_awaitSync1_case h1
  by_cases hi : s.cfg.frameCap ≤ s.pIdx.toNat
  · rw [feedStep_of_guard b ((overflows_iff s).2 ⟨h1, hi⟩)]
    exact .dropped h1 hi
  replace hi := Nat.lt_of_not_le hi
  rw [feedStep_of_no_guard b (.inr hi)]
  cases hs : s.pStage with
  | awaitSync1 => exact absurd hs h1
  | awaitSync2 =>
    rw [stageStep_awaitSync2 hs]
    obtain ⟨hb, e⟩ | ⟨hb, e⟩ | ⟨h2, h1, e⟩ := stageAwaitSync2_cases b s
    · exact e ▸ .sync2 hs hi hb
    · rw [e, stageAwaitSync1_sync]
      exact .resync hs hi hb
    · exact e ▸ .badSync hs hi h2 h1
  | readLenHi =>
    rw [stageStep_readLenHi hs]
    exact .lenHi hs hi
  | readLenLo =>
    rw [stageStep_readLenLo hs]
    obtain ⟨hl, e⟩ | ⟨hl, e⟩ := stageReadLenLo_cases b s
    · exact e ▸ .badLen hs hi hl
    · exact e ▸ .goodLen hs hi hl
  | readData =>
    rw [stageStep_readData hs, stageReadData_eq, hs]
    exact .data hs hi
  | readChecksumHi =>
    rw [stageStep_readChecksumHi hs]
    exact .checksumHi hs hi
  | readChecksumLo =>
    rw [stageStep_readChecksumLo hs]
    obtain ⟨hc, e⟩ | ⟨hc, hl, e⟩ | ⟨hc, hl, e⟩ := stageReadChecksumLo_cases b s
    · exact e ▸ .badChecksum hs hi hc
    · exact e ▸ .shortFrame hs hi hc hl
    · exact e ▸ .validFrame hs hi hc hl

/-- A FEED that answers a next state, by the case that ran. -/
theorem exec_feed_case {b : Byte} {s t : State} (h : exec (.feed b) s = .next t) :
    ∃ u out, FeedCase b s (u, out) ∧ t = u.finishFeed out := by
  rw [exec_feed] at h
  cases h
  exact ⟨_, _, feedStep_case b s, rfl⟩

/-! ## Beside the inputs and outputs -/

/-- A command reads neither the outputs of earlier events nor the order, and `now` only if it samples it. -/
theorem exec_fields {i : Instr} {s t : State} {n : Nat} (hn : samplesNow i = true → n = s.now)
    (h : exec i s = .next t) (p : List PortEvent) (r : Option RespWord) (q : Option Reading) (l : Option Byte) :
    exec i { s with pending := p, resp := r, reading := q, loaded := l, now := n }
      = .next { t with pending := p, loaded := l, now := n } := by
  cases i with
  | arm base cap =>
    cases hn rfl
    obtain ⟨ha, e⟩ | ⟨ha, hd, e⟩ | ⟨ha, hd, e⟩ := execArm_cases base cap s <;> (rw [exec, e] at h; cases h)
    · exact if_pos ha
    · exact (if_neg (Bool.eq_false_iff.1 ha)).trans (if_pos hd)
    · exact (if_neg (Bool.eq_false_iff.1 ha)).trans (if_neg (Bool.eq_false_iff.1 hd))
  | byte b =>
    cases hn rfl
    obtain ⟨ha, e⟩ | ⟨ha, hf, e⟩ | ⟨ha, hf, e⟩ := execByte_cases b s <;> (rw [exec, e] at h; cases h)
    · exact if_neg (Bool.eq_false_iff.1 ha)
    · exact (if_pos ha).trans (if_pos (decide_eq_true hf))
    · exact (if_pos ha).trans (if_neg (mt of_decide_eq_true hf))
  | tick =>
    cases hn rfl
    obtain ⟨ht, e⟩ | ⟨ht, e⟩ := execTick_cases s <;> (rw [exec, e] at h; cases h)
    · exact if_pos ht
    · exact if_neg (Bool.eq_false_iff.1 ht)
  | status =>
    obtain ⟨ho, e⟩ | ⟨ho, e⟩ := execStatus_cases s <;> (rw [exec, e] at h; cases h)
    · exact if_pos ho
    · exact if_neg (Bool.eq_false_iff.1 ho)
  | feed b =>
    rw [exec_feed] at h
    cases h
    rw [exec_feed, feedStep_fields, finishFeed_fields]

end Sys2Proof.Machine
end

section
/-! PROOFS. What one step can do: the events of the command order (20_memory.md R52, 30_encoding.md R70). -/

namespace Sys2Proof.Machine

/-! ## One event at a time -/

/-- A legal word whose timestamp fits the port is performed (R83). -/
theorem presentWord_of_legal {w : CmdWord} {i : Instr} {s : State} (hd : decode w = .legal i)
    (hf : samplesNow i = true → s.now < 2 ^ s.cfg.tsW) : presentWord w s = exec i s := by
  obtain ⟨j, hj, hs, hn, -⟩ | ⟨j, hj, -, e⟩ | ⟨why, hj, -⟩ := presentWord_cases w s <;>
    rw [hd] at hj <;> cases hj
  · exact absurd (hf hs) hn
  · exact e

/-- An item of DRAIN is never refused: it presents a FEED, which ignores `now`. -/
theorem performEvent_drain (a : Addr) (n : Nat) (s : State) :
    performEvent (.drain a n) s = exec (.feed (s.hostByte a)) { s with now := n } :=
  presentWord_of_legal (decode_encode _) (by simp [samplesNow])

/-- What a step that answers a next state did. -/
inductive StepCase (s : State) : State → Prop
  | idle (hp : s.pending = []) : StepCase s s
  | performed {e : PortEvent} {rest : List PortEvent} {i : Instr} {n : Nat} {t : State}
      (hp : s.pending = e :: rest) (he : e ≠ .rst) (h : exec i { s.beginEvent rest with now := n } = .next t) :
    StepCase s t
  | illegal {w : CmdWord} {n : Nat} {rest : List PortEvent} (hp : s.pending = .command w n :: rest) :
    StepCase s ({ s.beginEvent rest with now := n } : State).illegalCommand
  | reset {rest : List PortEvent} (hp : s.pending = .rst :: rest) : StepCase s (s.beginEvent rest).applyReset
  | hostStored {a : Addr} {b : Byte} {rest : List PortEvent} (hp : s.pending = .hostStore a b :: rest) :
    StepCase s ((s.beginEvent rest).memWrite a b)
  | hostLoaded {a : Addr} {rest : List PortEvent} (hp : s.pending = .hostLoad a :: rest) :
    StepCase s { s.beginEvent rest with loaded := some ((s.beginEvent rest).hostByte a) }

theorem step_case {s t : State} (h : step s = .next t) : StepCase s t := by
  cases hp : s.pending with
  | nil =>
    rw [step_idle hp] at h
    cases h
    exact .idle hp
  | cons e rest =>
    rw [step_event hp] at h
    cases e with
    | command w n =>
      obtain ⟨i, -, -, -, e⟩ | ⟨i, -, -, e⟩ | ⟨why, -, e⟩ :=
          presentWord_cases w { s.beginEvent rest with now := n } <;>
        rw [performEvent, e] at h
      · cases h
      · exact .performed hp (by simp) h
      · cases h
        exact .illegal hp
    | rst =>
      cases h
      exact .reset hp
    | hostStore a b =>
      rw [performEvent] at h
      split at h <;> cases h
      exact .hostStored hp
    | hostLoad a =>
      cases h
      exact .hostLoaded hp
    | drain a n =>
      rw [performEvent_drain] at h
      exact .performed hp (by simp) h

/-! ## The step and the command it performs -/

/-- Settles O5: the port's test passes, and the rest of the step is `exec`. -/
theorem stepPerformsThePresentedCommand : Obligations.StepPerformsThePresentedCommand := by
  unfold Obligations.StepPerformsThePresentedCommand
  intro s w t rest i hp hd hf
  rw [step_event hp]
  exact presentWord_of_legal hd hf

/-- Settles O9: every branch of every command is a next state. -/
theorem everyCommandCompletes : Obligations.EveryCommandCompletes := by
  unfold Obligations.EveryCommandCompletes
  exact exec_completes

/-- Settles O16, case by case: no command writes a parameter, and no other event does. -/
theorem noStepChangesTheConfiguration : Obligations.NoStepChangesTheConfiguration := by
  unfold Obligations.NoStepChangesTheConfiguration
  intro s t h
  cases step_case h with
  | performed _ _ hexec =>
    obtain ⟨-, -, hcfg, -, -⟩ := exec_keeps hexec
    exact hcfg
  | idle | illegal | reset | hostStored | hostLoaded => rfl

/-- Settles O13: a command that does not sample `now` also does not read it. -/
theorem statusAndFeedIgnoreNow : Obligations.StatusAndFeedIgnoreNow := by
  unfold Obligations.StatusAndFeedIgnoreNow
  intro s t n i hi h
  obtain ⟨hpending, hloaded, -, -, -⟩ := exec_keeps h
  have hrun := exec_fields (n := n) (by simp [hi]) h s.pending s.resp s.reading s.loaded
  rw [← hpending, ← hloaded] at hrun ⊢
  exact hrun

/-! ## Refusals -/

/-- The port refuses a word exactly for a timestamp that the command samples and the port cannot carry. -/
theorem presentWord_refused_iff (w : CmdWord) (s : State) (r : Refusal) : presentWord w s = .refused r ↔
    r = .timestampBeyondPort ∧ ∃ i, decode w = .legal i ∧ samplesNow i = true ∧ 2 ^ s.cfg.tsW ≤ s.now := by
  obtain ⟨i, hd, hs, hn, e⟩ | ⟨i, hd, hf, e⟩ | ⟨why, hd, e⟩ := presentWord_cases w s
  · rw [e]
    exact ⟨fun h => by cases h; exact ⟨rfl, i, hd, hs, Nat.le_of_not_lt hn⟩, fun h => by rw [h.1]⟩
  · obtain ⟨t, ht⟩ := exec_completes i s
    rw [e, ht]
    refine ⟨fun h => (nomatch h), ?_⟩
    rintro ⟨-, j, hj, hs, hn⟩
    rw [hd] at hj
    cases hj
    exact absurd (hf hs) (Nat.not_lt.2 hn)
  · rw [e]
    refine ⟨fun h => (nomatch h), ?_⟩
    rintro ⟨-, j, hj, -⟩
    rw [hd] at hj
    cases hj

/-- Settles O8, event by event: the port refuses a command for its timestamp, the host's store is refused for the buffer
it hits, and no other event is refused. -/
theorem stepRefusesExactlyTheNamedInputs : Obligations.StepRefusesExactlyTheNamedInputs := by
  unfold Obligations.StepRefusesExactlyTheNamedInputs
  intro s r
  cases hp : s.pending with
  | nil => simp [step_idle hp]
  | cons e rest =>
    rw [step_event hp]
    cases e with
    | command w n => simp [performEvent, presentWord_refused_iff]
    | rst => simp [performEvent]
    | hostStore a b =>
      have howns := ownsByte_iff (s.beginEvent rest) a
      simp only [beginEvent_armed, beginEvent_rxBase, beginEvent_rxN] at howns
      rw [performEvent]
      split_ifs with h
      · refine ⟨fun e => ?_, ?_⟩
        · cases e
          exact .inl ⟨rfl, a, b, rest, rfl, howns.1 h⟩
        · rintro (⟨rfl, -⟩ | ⟨-, w, n, rest', i, he, -⟩)
          · rfl
          · cases he
      · refine ⟨fun e => (nomatch e), ?_⟩
        rintro (⟨-, a', b', rest', he, ha, hlt⟩ | ⟨-, w, n, rest', i, he, -⟩) <;> cases he
        exact absurd (howns.2 ⟨ha, hlt⟩) h
    | hostLoad a => simp [performEvent]
    | drain a n =>
      obtain ⟨t, ht⟩ := exec_completes (.feed ((s.beginEvent rest).hostByte a)) { s.beginEvent rest with now := n }
      rw [performEvent_drain, ht]
      simp

/-! ## The host's accesses -/

/-- The addresses of the buffer, by their distance from its base modulo 2^32 (20_memory.md R60). -/
theorem sub_toNat_lt_iff (base a : Addr) (n : Half) :
    (a - base).toNat < n.toNat ↔ ∃ k, k < n.toNat ∧ a = base + BitVec.ofNat 32 k := by
  constructor
  · intro h
    exact ⟨(a - base).toNat, h, by rw [BitVec.ofNat_toNat, BitVec.setWidth_eq, add_sub_cancel]⟩
  · rintro ⟨k, hk, rfl⟩
    have := n.isLt
    rw [add_sub_cancel_left, BitVec.toNat_ofNat]
    omega

/-- Settles O34: the range test of R60 decides the store; a load is only an output. -/
theorem hostAccessesRespectBufferOwnership : Obligations.HostAccessesRespectBufferOwnership := by
  unfold Obligations.HostAccessesRespectBufferOwnership
  intro s a b rest
  have howns : (s.beginEvent rest).ownsByte a = true
      ↔ s.armed = true ∧ ∃ k, k < s.rxN.toNat ∧ a = s.rxBase + BitVec.ofNat 32 k :=
    (ownsByte_iff _ a).trans (and_congr_right' (sub_toNat_lt_iff s.rxBase a s.rxN))
  refine ⟨fun hp => ⟨fun ha hk => ?_, fun hfree => ?_⟩, fun hp => step_event hp⟩
  · rw [step_event hp]
    exact if_pos (howns.2 ⟨ha, hk⟩)
  · have hnot : ¬ (s.beginEvent rest).ownsByte a = true := by
      rw [howns]
      rintro ⟨ha, k, hk, hak⟩
      obtain hu | hout := hfree
      · rw [ha] at hu
        cases hu
      · exact hout k hk hak
    have hread := hostByte_memWrite (s.beginEvent rest) a
    exact ⟨(s.beginEvent rest).memWrite a b, (step_event hp).trans (if_neg hnot), (hread _ _).trans (if_pos rfl),
      fun c hc => (hread _ _).trans (if_neg hc), rfl⟩

end Sys2Proof.Machine
end

section
/-! PROOFS. The machine's invariant: it holds at reset and every step keeps it (10_state.md R30, R36). -/

namespace Sys2Proof.Machine

/-! ## The parser's half of the invariant -/

/-- What the invariant says of the parser and FB. -/
structure State.ParserPart (s : State) : Prop where
  fb : s.fb.wf s.cfg.frameCap = true
  idx : s.pIdx.toNat ≤ s.cfg.frameCap
  fbHolds : s.FbHolds
  parser : s.ParserInv

theorem State.Inv.parserPart {s : State} (h : s.Inv) : s.ParserPart := ⟨h.fb, h.idx, h.fbHolds, h.parser⟩

/-- The parser's table by stage speaks of the parser's half of the state alone. -/
theorem ParserSame.parserInv {s t : State} (h : ParserSame s t) (hs : s.ParserInv) : t.ParserInv := by
  have hsum (n : Nat) : t.fbSum n = s.fbSum n := fbSum_congr n fun j _ => h.fbByte j
  unfold State.ParserInv State.LenAccepted State.FbHeader State.ChecksumHiAt at hs ⊢
  simpa only [h.cfg, h.pStage, h.pIdx, h.pLen, h.pAcc, h.fbByte, hsum] using hs

theorem ParserSame.parserPart {s t : State} (h : ParserSame s t) (hs : s.ParserPart) : t.ParserPart where
  fb := by rw [h.fb, h.cfg]; exact hs.fb
  idx := by rw [h.pIdx, h.cfg]; exact hs.idx
  fbHolds := by rw [State.FbHolds, h.pIdx, h.fb]; exact hs.fbHolds
  parser := h.parserInv hs.parser

/-- A parser just reset holds no byte, so it meets its half whatever FB holds. -/
theorem parserReset_parserPart {s : State} (hfb : s.fb.wf s.cfg.frameCap = true) : s.parserReset.ParserPart where
  fb := hfb
  idx := Nat.zero_le _
  fbHolds := fun _ hi => absurd hi (Nat.not_lt_zero _)
  parser := ⟨rfl, rfl, rfl⟩

/-- A parser that holds just a sync-1, wherever it came from. -/
theorem sync1_parserPart {s : State} (hcap : 32 ≤ s.cfg.frameCap) (hfb : s.fb.wf s.cfg.frameCap = true) :
    ({ s.fbWrite 0 0x42 with pIdx := 1, pAcc := 0x0042, pStage := .awaitSync2 } : State).ParserPart where
  fb := wf_setByte _ (show 0 < s.cfg.frameCap by omega) hfb
  idx := by change 1 ≤ s.cfg.frameCap; omega
  fbHolds := by
    intro i hi
    obtain rfl : i = 0 := Nat.lt_one_iff.1 hi
    exact congrArg Option.isSome (byteAt_setByte_same s.fb 0 0x42)
  parser := ⟨rfl, rfl, (fbByte_fbWrite s 0 0 0x42).trans (if_pos rfl)⟩

/-! ## A byte stored at the write index -/

section
variable {s t : State} {b : Byte}

/-- Storing a byte below the capacity keeps FB in form and every byte below the index held; what is left to show is the
new stage's row of the table. -/
theorem fbPush_parserPart {s : State} {b : Byte} {len acc : Half} {st : Stage} (hcap : s.cfg.frameCap ≤ 65539)
    (hi : s.pIdx.toNat < s.cfg.frameCap) (hs : s.ParserPart)
    (ht : ({ s.fbPush b with pLen := len, pAcc := acc, pStage := st } : State).ParserInv) :
    ({ s.fbPush b with pLen := len, pAcc := acc, pStage := st } : State).ParserPart where
  fb := wf_setByte b hi hs.fb
  idx := (pIdx_succ hcap hi).trans_le hi
  fbHolds := by
    intro i hlt
    replace hlt := hlt.trans_eq (pIdx_succ hcap hi)
    simp only [fbPush_fb, byteAt_setByte]
    split_ifs with h
    · rfl
    · exact hs.fbHolds i (by omega)
  parser := ht

/-- Past the header, a stored byte leaves the header as it was. -/
theorem Pushed.header (hp : Pushed s t b) (hlen : t.pLen = s.pLen) (hi : 4 ≤ s.pIdx.toNat) (hs : s.FbHeader) :
    t.FbHeader := by
  rw [State.FbHeader, hlen, hp.below (by omega), hp.below (by omega), hp.below (by omega), hp.below (by omega)]
  exact hs

end

/-! ## The checksum field's place -/

theorem checksumOffset_eq (len : Half) : checksumOffset len = 4 + len.toNat - 2 := rfl

/-- The checksum's high byte is stored at its offset or, for a LEN = 2 frame under ONE_BYTE_DATA, one past it; both
are below the capacity. -/
theorem ChecksumHiAt.bounds {s : State} {i : Nat} (hlen : s.LenAccepted) (h : s.ChecksumHiAt i) :
    4 ≤ i ∧ checksumOffset s.pLen ≤ i ∧ (i + 1 < s.cfg.frameCap ∨ i = 5) := by
  obtain ⟨hge, hle⟩ := hlen
  obtain ⟨rfl, -⟩ | ⟨rfl, h2, -⟩ := h
  · rw [checksumOffset_eq]
    omega
  · rw [h2]
    exact ⟨by decide, by decide, .inr rfl⟩

/-! ## The rows of the table, as a FEED enters them -/

section
variable {s t : State} {b : Byte}

theorem readLenHi_parserInv (hs : s.pStage = .awaitSync2) (h : s.ParserInv) (hp : Pushed s t 0x4D)
    (hidx : t.pIdx = s.pIdx + 1) (hst : t.pStage = .readLenHi) (hacc : t.pAcc = addByte s.pAcc 0x4D) :
    t.ParserInv := by
  simp only [State.ParserInv, hs] at h
  obtain ⟨hi, ha, h0⟩ := h
  have hn : s.pIdx.toNat = 1 := by rw [hi]; rfl
  have h1 := hp.stored
  rw [hn] at h1
  simp only [State.ParserInv, hst]
  exact ⟨by rw [hidx, hi]; rfl, by rw [hacc, ha]; rfl, (hp.below (by omega)).trans h0, h1⟩

theorem readLenLo_parserInv (hs : s.pStage = .readLenHi) (h : s.ParserInv) (hp : Pushed s t b)
    (hidx : t.pIdx = s.pIdx + 1) (hst : t.pStage = .readLenLo) (hacc : t.pAcc = addByte s.pAcc b)
    (hlen : t.pLen = be16 b 0x00) : t.ParserInv := by
  simp only [State.ParserInv, hs] at h
  obtain ⟨hi, ha, h0, h1⟩ := h
  have hn : s.pIdx.toNat = 2 := by rw [hi]; rfl
  have h2 := hp.stored
  have hsum := hp.sum_succ
  have hsum2 : s.fbSum 2 = 0x008F := by simp only [State.fbSum, h0, h1]; rfl
  rw [hn] at h2 hsum
  simp only [State.ParserInv, hst]
  exact ⟨by rw [hidx, hi]; rfl, by rw [hacc, ha, hsum, hsum2], (hp.below (by omega)).trans h0,
    (hp.below (by omega)).trans h1, by rw [hlen, h2]⟩

/-- What the fourth byte establishes, whichever stage comes next: the header, and the sum of its four bytes. -/
theorem header_of_lenLo (hs : s.pStage = .readLenLo) (h : s.ParserInv) (hp : Pushed s t b)
    (hacc : t.pAcc = addByte s.pAcc b) (hlen : t.pLen = be16 (s.pLen.extractLsb 15 8) b) :
    s.pIdx = 3 ∧ t.FbHeader ∧ t.pAcc = t.fbSum 4 := by
  simp only [State.ParserInv, hs] at h
  obtain ⟨hi, ha, h0, h1, hl⟩ := h
  have hn : s.pIdx.toNat = 3 := by rw [hi]; rfl
  have h3 := hp.stored
  have hsum := hp.sum_succ
  rw [hn] at h3 hsum
  refine ⟨hi, ⟨(hp.below (by omega)).trans h0, (hp.below (by omega)).trans h1, ?_⟩, ?_⟩
  · rw [hlen, hl, be16_high, h3, hp.below (by omega)]
  · rw [hacc, ha, hsum]

theorem afterLenLo_parserInv (hs : s.pStage = .readLenLo) (h : s.ParserInv) (hp : Pushed s t b)
    (hidx : t.pIdx = s.pIdx + 1) (hacc : t.pAcc = addByte s.pAcc b)
    (hlen : t.pLen = be16 (s.pLen.extractLsb 15 8) b) (hok : t.LenAccepted)
    (hst : t.pStage = if t.pLen = 2 ∧ t.cfg.zeroData = .skipData then .readChecksumHi else .readData) :
    t.ParserInv := by
  obtain ⟨hi, hhdr, hsum⟩ := header_of_lenLo hs h hp hacc hlen
  obtain ⟨hge, hle⟩ := hok
  have hn : t.pIdx.toNat = 4 := by rw [hidx, hi]; rfl
  have hoff := checksumOffset_eq t.pLen
  have htwo : t.pLen = 2 ↔ t.pLen.toNat = 2 := BitVec.toNat_inj.symm
  split_ifs at hst with hz
  · have h4 : checksumOffset t.pLen = 4 := by rw [hz.1]; rfl
    simp only [State.ParserInv, hst]
    exact ⟨⟨hge, hle⟩, hhdr, h4 ▸ hsum, .inl ⟨hn.trans h4.symm, .inl hz.2⟩⟩
  · simp only [State.ParserInv, hst]
    refine ⟨⟨hge, hle⟩, hhdr, hn.ge, by omega, ?_, ?_⟩
    · rw [hn, min_eq_left (by omega)]
      exact hsum
    · by_cases h2 : t.pLen = 2
      · cases hpol : t.cfg.zeroData with
        | skipData => exact absurd ⟨h2, hpol⟩ hz
        | oneByteData => exact .inr (.inl ⟨h2, rfl, BitVec.eq_of_toNat_eq hn⟩)
        | stallInData => exact .inr (.inr ⟨h2, rfl⟩)
      · rw [htwo] at h2
        exact .inl (by omega)

theorem afterData_parserInv (hcap : s.cfg.frameCap ≤ 65539) (hi : s.pIdx.toNat < s.cfg.frameCap)
    (hs : s.pStage = .readData) (h : s.ParserInv) (hp : Pushed s t b) (hcfg : t.cfg = s.cfg)
    (hidx : t.pIdx = s.pIdx + 1) (hlen : t.pLen = s.pLen)
    (hacc : t.pAcc = if s.pIdx.toNat < checksumOffset s.pLen then addByte s.pAcc b else s.pAcc)
    (hst : t.pStage = if t.dataComplete = true then .readChecksumHi else .readData) : t.ParserInv := by
  simp only [State.ParserInv, hs] at h
  obtain ⟨⟨hge, hle⟩, hhdr, h4, -, ha, hcase⟩ := h
  have hn : t.pIdx.toNat = s.pIdx.toNat + 1 := by rw [hidx, pIdx_succ hcap hi]
  have hoff := checksumOffset_eq s.pLen
  have hok : t.LenAccepted := by rw [State.LenAccepted, hlen, hcfg]; exact ⟨hge, hle⟩
  have hhdr' : t.FbHeader := hp.header hlen h4 hhdr
  have hsum : t.pAcc = t.fbSum (min t.pIdx.toNat (checksumOffset t.pLen)) := by
    rw [hacc, hn, hlen, ha]
    split_ifs with hlt
    · rw [min_eq_left hlt.le, min_eq_left hlt, hp.sum_succ]
    · rw [min_eq_right (by omega), min_eq_right (by omega), hp.sum (by omega)]
  have hdone := dataComplete_iff t
  rw [hlen, hcfg, hn] at hdone
  split_ifs at hst with hd
  · replace hdone := hdone.1 hd
    simp only [State.ParserInv, hst]
    refine ⟨hok, hhdr', ?_, ?_⟩
    · rwa [min_eq_right (by rw [hn, hlen]; omega)] at hsum
    · rw [State.ChecksumHiAt, hlen, hcfg, hn]
      obtain hlt | ⟨h2, hpol, hi4⟩ | ⟨h2, hpol⟩ := hcase
      · exact .inl ⟨by omega, .inr (by omega)⟩
      · exact .inr ⟨by rw [hi4]; rfl, h2, hpol⟩
      · have h4' : checksumOffset s.pLen = 4 := by rw [h2]; rfl
        rw [hpol] at hdone
        obtain hfour | ⟨habs, -⟩ := hdone
        · omega
        · cases habs
  · replace hdone := mt hdone.2 hd
    simp only [State.ParserInv, hst]
    refine ⟨hok, hhdr', by omega, by rw [hn, hcfg]; exact hi, hsum, ?_⟩
    rw [hlen, hcfg, hn]
    obtain hlt | ⟨h2, hpol, hi4⟩ | ⟨h2, hpol⟩ := hcase
    · exact .inl (by omega)
    · refine absurd (.inr ⟨hpol, ?_⟩) hdone
      rw [h2, hi4]
      decide
    · exact .inr (.inr ⟨h2, hpol⟩)

theorem readChecksumLo_parserInv (hcap : s.cfg.frameCap ≤ 65539) (hi : s.pIdx.toNat < s.cfg.frameCap)
    (hs : s.pStage = .readChecksumHi) (h : s.ParserInv) (hp : Pushed s t b) (hcfg : t.cfg = s.cfg)
    (hidx : t.pIdx = s.pIdx + 1) (hlen : t.pLen = s.pLen) (hacc : t.pAcc = s.pAcc)
    (hst : t.pStage = .readChecksumLo) : t.ParserInv := by
  simp only [State.ParserInv, hs] at h
  obtain ⟨hok, hhdr, ha, hat⟩ := h
  obtain ⟨h4, hoff, -⟩ := ChecksumHiAt.bounds hok hat
  have hn : t.pIdx.toNat = s.pIdx.toNat + 1 := by rw [hidx, pIdx_succ hcap hi]
  simp only [State.ParserInv, hst]
  refine ⟨?_, hp.header hlen h4 hhdr, ?_, by omega, ?_⟩
  · rw [State.LenAccepted, hlen, hcfg]
    exact hok
  · rw [hacc, ha, hlen, hp.sum hoff]
  · rw [hn, Nat.add_sub_cancel, State.ChecksumHiAt, hlen, hcfg]
    exact hat

end

/-! ## FEED keeps the parser's half -/

theorem FeedCase.parserPart {b : Byte} {s u : State} {out : FeedOutcome} (hc : s.cfg.legal = true)
    (h : s.ParserPart) (hcase : FeedCase b s (u, out)) : u.ParserPart := by
  obtain ⟨-, hmin, hcap, -⟩ := (legal_iff _).1 hc
  cases hcase with
  | dropped | badSync => exact parserReset_parserPart h.fb
  | sync1 => exact sync1_parserPart hmin h.fb
  | resync => exact sync1_parserPart (s := s.parserReset) hmin h.fb
  | discarded => exact h
  | badLen _ hi | badChecksum _ hi | shortFrame _ hi | validFrame _ hi =>
    exact parserReset_parserPart (wf_setByte b hi h.fb)
  | sync2 hs hi hb =>
    exact fbPush_parserPart hcap hi h (readLenHi_parserInv hs h.parser ⟨rfl, rfl⟩ rfl rfl rfl)
  | lenHi hs hi =>
    exact fbPush_parserPart hcap hi h (readLenLo_parserInv hs h.parser ⟨rfl, rfl⟩ rfl rfl rfl rfl)
  | goodLen hs hi hl =>
    have hok := mt (badLength_iff _ _).2 (Bool.eq_false_iff.1 hl)
    rw [not_or, Nat.not_lt, Nat.not_lt] at hok
    exact fbPush_parserPart hcap hi h (afterLenLo_parserInv hs h.parser ⟨rfl, rfl⟩ rfl rfl rfl hok rfl)
  | data hs hi =>
    exact fbPush_parserPart hcap hi h (afterData_parserInv hcap hi hs h.parser ⟨rfl, rfl⟩ rfl rfl rfl rfl rfl)
  | checksumHi hs hi =>
    exact fbPush_parserPart hcap hi h (readChecksumLo_parserInv hcap hi hs h.parser ⟨rfl, rfl⟩ rfl rfl rfl rfl rfl)

/-! ## The engine's half -/

theorem EngineSame.engineInv {s t : State} (h : EngineSame s t) (hs : s.EngineInv) : t.EngineInv := by
  unfold State.EngineInv at hs ⊢
  simpa only [h.cfg, h.armed, h.rxBase, h.rxN, h.rxIdx, h.rxOut, h.rxOutlen] using hs

theorem EngineCase.engineInv {i : Instr} {s t : State} (h : EngineCase i s t) (hs : s.EngineInv) : t.EngineInv := by
  obtain ⟨harmed, hout, hidx, hlen⟩ := hs
  cases h with
  | quiet same => exact same.engineInv ⟨harmed, hout, hidx, hlen⟩
  | @accepted base cap _ ha hbase hcap hmax =>
    have hpos : cap.toNat ≠ 0 := fun h0 => hcap (BitVec.eq_of_toNat_eq h0)
    exact ⟨fun _ => ⟨hbase, Nat.pos_of_ne_zero hpos, hmax, Nat.pos_of_ne_zero hpos, rfl⟩, fun h => (nomatch h),
      Nat.zero_le _, Nat.zero_le _⟩
  | stored ha hn =>
    obtain ⟨hbase, h1, hmax, hlt, hno⟩ := harmed ha
    have hsucc := rxIdx_succ hlt
    have hne : (s.rxIdx + 1).toNat ≠ s.rxN.toNat := fun e => hn (BitVec.eq_of_toNat_eq e)
    have hlt' : (s.rxIdx + 1).toNat < s.rxN.toNat := by omega
    exact ⟨fun _ => ⟨hbase, h1, hmax, hlt', hno⟩, fun h => absurd (hno.symm.trans h) (by decide), hlt'.le, hlen⟩
  | filled ha hn =>
    obtain ⟨-, h1, -, -, -⟩ := harmed ha
    exact ⟨fun h => (nomatch h), fun _ => ⟨rfl, h1, le_rfl, hn.symm⟩, (congrArg BitVec.toNat hn).le, le_rfl⟩
  | timedOut ha hpos =>
    exact ⟨fun h => (nomatch h), fun _ => ⟨rfl, hpos, hidx, rfl⟩, hidx, hidx⟩

theorem EngineCase.mem_wf {i : Instr} {s t : State} (h : EngineCase i s t) (hs : s.mem.wf hostMemorySize = true) :
    t.mem.wf hostMemorySize = true := by
  cases h with
  | quiet same => rw [same.mem]; exact hs
  | accepted | timedOut => exact hs
  | stored | filled => exact wf_setByte _ s.bufferAddr.isLt hs

/-! ## The machine -/

theorem State.ParserPart.inv {s : State} (h : s.ParserPart) (hc : s.cfg.legal = true)
    (hmem : s.mem.wf hostMemorySize = true) (heng : s.EngineInv) : s.Inv :=
  ⟨hc, hmem, h.fb, h.idx, h.fbHolds, heng, h.parser⟩

theorem State.Inv.of_parserSame {s t : State} (h : s.Inv) (hp : ParserSame s t) (hmem : t.mem.wf hostMemorySize = true)
    (heng : t.EngineInv) : t.Inv :=
  (hp.parserPart h.parserPart).inv (hp.cfg ▸ h.cfg) hmem heng

/-- The inputs, the outputs and the order are no part of the invariant. -/
theorem State.Inv.fields {s : State} (h : s.Inv) (p : List PortEvent) (r : Option RespWord) (q : Option Reading)
    (l : Option Byte) (n : Nat) :
    ({ s with pending := p, resp := r, reading := q, loaded := l, now := n } : State).Inv :=
  h.of_parserSame ⟨rfl, rfl, rfl, rfl, rfl, rfl, rfl⟩ h.mem h.engine

theorem finishFeed_parserSame (s : State) (out : FeedOutcome) : ParserSame s (s.finishFeed out) := by
  cases out <;> exact ⟨rfl, rfl, rfl, rfl, rfl, rfl, rfl⟩

theorem exec_engineInv {i : Instr} {s t : State} (h : s.EngineInv) (he : exec i s = .next t) : t.EngineInv :=
  (exec_engineCase he).engineInv h

theorem exec_inv {i : Instr} {s t : State} (h : s.Inv) (he : exec i s = .next t) : t.Inv := by
  have hmem := (exec_engineCase he).mem_wf h.mem
  have heng := exec_engineInv h.engine he
  by_cases hi : ∃ b, i = .feed b
  · obtain ⟨b, rfl⟩ := hi
    obtain ⟨u, out, hcase, rfl⟩ := exec_feed_case he
    have hpart := (finishFeed_parserSame u out).parserPart (hcase.parserPart h.cfg h.parserPart)
    exact hpart.inv ((exec_feed_parserOnly he).cfg ▸ h.cfg) hmem heng
  · exact h.of_parserSame (exec_parserSame (not_exists.1 hi) he) hmem heng

/-- The reset values meet the invariant, whatever host memory in canonical form stands beside them (R210). -/
theorem resetWith_inv {cfg : Config} (hc : cfg.legal = true) {m : Memory} (hm : m.wf hostMemorySize = true) (k n : Nat)
    (p : List PortEvent) :
    ({ State.resetWith cfg with mem := m, resets := k, now := n, pending := p } : State).Inv where
  cfg := hc
  mem := hm
  fb := rfl
  idx := Nat.zero_le _
  fbHolds := fun _ hi => absurd hi (Nat.not_lt_zero _)
  engine := ⟨fun h => (nomatch h), fun h => (nomatch h), le_rfl, le_rfl⟩
  parser := ⟨rfl, rfl, rfl⟩

/-- Settles O57: the reset values are the table's first row and an engine with nothing armed. -/
theorem resetMeetsTheInvariant : Obligations.ResetMeetsTheInvariant := by
  unfold Obligations.ResetMeetsTheInvariant
  have hreset (cfg : Config) (hc : cfg.legal = true) : (State.resetWith cfg).Inv :=
    resetWith_inv hc (m := []) rfl 0 0 []
  exact ⟨hreset _ (by decide), hreset⟩

/-- Settles O56, event by event: a command keeps both halves, reset restores them, and the host's accesses touch host
memory and the outputs. -/
theorem everyStepKeepsTheInvariant : Obligations.EveryStepKeepsTheInvariant := by
  unfold Obligations.EveryStepKeepsTheInvariant
  intro s t h hstep
  cases step_case hstep with
  | idle => exact h
  | performed _ _ hexec => exact exec_inv (h.fields ..) hexec
  | illegal => exact h.fields ..
  | reset => exact resetWith_inv h.cfg h.mem ..
  | @hostStored a b _ _ =>
    exact h.of_parserSame ⟨rfl, rfl, rfl, rfl, rfl, rfl, rfl⟩ (wf_setByte b a.isLt h.mem) h.engine
  | hostLoaded => exact h.fields ..

end Sys2Proof.Machine
end

section
/-! PROOFS. Runs of commands (70_reset_and_hazards.md R224), through the port and without it. -/

namespace Sys2Proof.Machine

/-! ## Commands performed one after the other -/

section
variable {c : Instr × Nat} {cs : List (Instr × Nat)} {s t : State}

theorem performAll_cons (h : exec c.1 { s with now := c.2 } = .next t) :
    performAll (c :: cs) s = (t.output :: (performAll cs t).1, (performAll cs t).2) := by
  simp only [performAll, h]

/-- What every command of a list keeps, the run keeps; and the run completes. -/
theorem performAll_keeps {P : State → Prop}
    (hstep : ∀ c ∈ cs, ∀ u v, P u → exec c.1 { u with now := c.2 } = .next v → P v) (hs : P s) :
    ∃ t, (performAll cs s).2 = .next t ∧ P t := by
  induction cs generalizing s with
  | nil => exact ⟨s, rfl, hs⟩
  | cons c rest ih =>
    obtain ⟨u, hu⟩ := exec_completes c.1 { s with now := c.2 }
    rw [performAll_cons hu]
    exact ih (fun d hd => hstep d (List.mem_cons_of_mem c hd)) (hstep c List.mem_cons_self s u hs hu)

theorem performAll_append_end (ds : List (Instr × Nat)) (h : (performAll cs s).2 = .next t) :
    (performAll (cs ++ ds) s).2 = (performAll ds t).2 := by
  induction cs generalizing s with
  | nil =>
    cases h
    rfl
  | cons c rest ih =>
    obtain ⟨u, hu⟩ := exec_completes c.1 { s with now := c.2 }
    rw [performAll_cons hu] at h
    rw [List.cons_append, performAll_cons hu]
    exact ih h

end

/-! ## The order of presented commands -/

/-- What stands in the output fields is no input of a command. -/
theorem exec_ignores_outputs (i : Instr) (s : State) (r : Option RespWord) (q : Option Reading) :
    exec i { s with resp := r, reading := q } = exec i s := by
  obtain ⟨t, h⟩ := exec_completes i s
  obtain ⟨hpending, hloaded, -, hnow, -⟩ := exec_keeps h
  have hrun := exec_fields (fun _ => rfl) h s.pending r q s.loaded
  rw [← hpending, ← hloaded, ← hnow] at hrun
  rw [h, ← hrun, hpending, hloaded, hnow]

/-- The step of a presented command is the command, performed with the order moved on. -/
theorem step_present {i : Instr} {n : Nat} {rest : List PortEvent} {s : State}
    (hp : s.pending = Script.present i n :: rest) (hf : samplesNow i = true → n < 2 ^ s.cfg.tsW) :
    step s = exec i { s.beginEvent rest with now := n } :=
  (step_event hp).trans (presentWord_of_legal (decode_encode i) hf)

/-- An order of presented commands runs as the commands themselves, whatever outputs stood before it. -/
theorem runOrder_present (cs : List (Instr × Nat)) (s : State)
    (hp : s.pending = cs.map fun c => Script.present c.1 c.2) (hl : s.loaded = none)
    (hf : ∀ c ∈ cs, samplesNow c.1 = true → c.2 < 2 ^ s.cfg.tsW) :
    runOrder cs.length s = performAll cs { s with pending := [] } := by
  induction cs generalizing s with
  | nil =>
    rw [List.map_nil] at hp
    rw [← hp]
    rfl
  | cons c rest ih =>
    obtain ⟨t, h⟩ := exec_completes c.1 { s with pending := [], now := c.2 }
    obtain ⟨hpending, hloaded, hcfg, hnow, -⟩ := exec_keeps h
    have hstep : step s = .next { t with pending := rest.map fun c => Script.present c.1 c.2 } := by
      have hrun := exec_fields (fun _ => rfl) h (rest.map fun c => Script.present c.1 c.2) none none none
      rw [step_present hp (hf c List.mem_cons_self)]
      refine hrun.trans ?_
      rw [← hnow, ← hl, ← hloaded]
    have hrest := ih { t with pending := rest.map fun c => Script.present c.1 c.2 } rfl (hloaded.trans hl)
      fun d hd hs => hcfg ▸ hf d (List.mem_cons_of_mem c hd) hs
    replace hpending : t.pending = [] := hpending
    have ht : ({ t with pending := [] } : State) = t := by rw [← hpending]
    rw [performAll_cons h, List.length_cons, runOrder, hstep]
    simp only [hrest, ht]
    rfl

/-- Settles O7: the order of the words, run from its first command on. -/
theorem scriptRunsCommandByCommand : Obligations.ScriptRunsCommandByCommand := by
  unfold Obligations.ScriptRunsCommandByCommand
  intro cs s hp hl hf
  have hs : ({ s with pending := [] } : State) = s := by rw [← hp]
  have hrun := runOrder_present cs { s with pending := cs.map fun c => Script.present c.1 c.2 } rfl hl hf
  rw [runScript, List.length_map, hrun]
  exact congrArg (performAll cs) hs

/-! ## DRAIN -/

/-- Item by item, a drain of addresses and the FEEDs of their bytes do the same, since a FEED writes no host byte. -/
theorem runOrder_drain (as : List Addr) (s : State) :
    runOrder as.length { s with pending := as.map fun a => .drain a 0 }
      = runOrder as.length { s with pending := as.map fun a => Script.present (.feed (s.hostByte a)) 0 } := by
  induction as generalizing s with
  | nil => rfl
  | cons a rest ih =>
    obtain ⟨t, h⟩ := exec_completes (.feed (s.hostByte a)) { s with now := 0 }
    have hread (c : Addr) : s.hostByte c = t.hostByte c := (hostByte_congr (exec_feed_parserOnly h).mem c).symm
    have hfed (es : List PortEvent) :
        exec (.feed (s.hostByte a)) { ({ s with pending := [] } : State).beginEvent es with now := 0 }
          = .next { t with pending := es, loaded := none, now := 0 } :=
      exec_fields (fun _ => rfl) h es none none none
    have hdrain := (step_event (s := { s with pending := (a :: rest).map fun a => .drain a 0 }) rfl).trans
      ((performEvent_drain a 0 _).trans (hfed _))
    have hpresent := (step_present
      (s := { s with pending := (a :: rest).map fun a => Script.present (.feed (s.hostByte a)) 0 }) rfl
      (by simp [samplesNow])).trans (hfed _)
    rw [List.length_cons, runOrder, runOrder, hdrain, hpresent]
    simp only [hread]
    exact congrArg (fun r => (_ :: r.1, r.2)) (ih { t with loaded := none, now := 0 })

/-- Settles O35: the addresses of DRAIN, one by one. -/
theorem drainFeedsTheBufferBytesInOrder : Obligations.DrainFeedsTheBufferBytesInOrder := by
  unfold Obligations.DrainFeedsTheBufferBytesInOrder
  intro base n s
  have hrun := runOrder_drain ((List.range n).map fun k => base + BitVec.ofNat 32 k) s
  simpa [runScript, Script.drain, Script.feeds, Function.comp_def] using hrun

end Sys2Proof.Machine
end

section
/-! PROOFS. The laws of the engine that one or two commands show (40_reception_engine.md, 60_exceptions.md precedence,
70_reset_and_hazards.md hazards). -/

namespace Sys2Proof.Machine

/-! ## Each branch of BYTE and TICK, by its condition -/

section
variable {s : State} {b : Byte}

theorem exec_byte_discarded (ha : s.armed = false) : exec (.byte b) s = .next (s.respond 0x0 0) :=
  if_neg (Bool.eq_false_iff.1 ha)

theorem exec_byte_filled (ha : s.armed = true) (hn : s.rxIdx + 1 = s.rxN) :
    exec (.byte b) s = .next (((s.storeReceived b).completeWith s.rxN).respond 0x0 0) :=
  (if_pos ha).trans (if_pos (decide_eq_true hn))

theorem exec_byte_stored (ha : s.armed = true) (hn : s.rxIdx + 1 ≠ s.rxN) :
    exec (.byte b) s = .next ((s.storeReceived b).respond 0x0 0) :=
  (if_pos ha).trans (if_neg (mt of_decide_eq_true hn))

theorem exec_tick_completes (ha : s.armed = true) (hidx : 0 < s.rxIdx.toNat)
    (hidle : s.rxLast + s.cfg.idleTimeout ≤ s.now) :
    exec .tick s = .next ((s.completeWith s.rxIdx).respond 0x0 0) :=
  if_pos ((timesOut_iff s).2 ⟨ha, hidx, hidle⟩)

theorem exec_tick_waits (h : ¬ (s.armed = true ∧ 0 < s.rxIdx.toNat ∧ s.rxLast + s.cfg.idleTimeout ≤ s.now)) :
    exec .tick s = .next (s.respond 0x0 0) :=
  if_neg (mt (timesOut_iff s).1 h)

end

/-! ## The writer discipline -/

/-- Settles O22, command by command from what each can do to the engine; the parser's half is the frame of the engine's
commands. -/
theorem commandsKeepTheWriterDiscipline : Obligations.CommandsKeepTheWriterDiscipline := by
  unfold Obligations.CommandsKeepTheWriterDiscipline
  intro s t i h
  obtain ⟨hpending, hloaded, hcfg, hnow, -⟩ := exec_keeps h
  refine ⟨fun hi => ?_, hcfg, hnow, hloaded, hpending, ?_⟩
  · have hp := exec_parserSame hi h
    exact ⟨hp.pStage, hp.pIdx, hp.pLen, hp.pAcc, hp.fbByte⟩
  have hcase := exec_engineCase h
  cases i with
  | arm base cap =>
    cases hcase with
    | quiet e _ =>
      exact ⟨e.hostByte, fun _ => ⟨e.armed, e.rxBase, e.rxN, e.rxIdx, e.rxLast, e.rxOut, e.rxOutlen⟩,
        fun hs ht => (nomatch (e.armed.trans hs).symm.trans ht),
        fun _ _ => ⟨e.rxBase, e.rxN, e.rxIdx, e.rxLast, e.rxOut, e.rxOutlen⟩⟩
    | accepted ha =>
      exact ⟨hostByte_congr rfl, fun hs => (nomatch ha.symm.trans hs), fun _ _ => ⟨rfl, rfl, rfl, rfl, rfl, rfl⟩,
        fun _ ht => (nomatch ht)⟩
  | byte b =>
    cases hcase with
    | quiet e hbyte =>
      exact ⟨fun a _ => e.hostByte a, e.rxBase, e.rxN, fun hs => (nomatch (hbyte b rfl).symm.trans hs),
        fun _ => ⟨e.rxIdx, e.rxLast, e.armed, e.rxOut, e.rxOutlen⟩⟩
    | stored ha | filled ha =>
      refine ⟨fun a hne => ?_, rfl, rfl, fun _ => rfl, fun hs => (nomatch ha.symm.trans hs)⟩
      exact (hostByte_of_setByte (exec_byte_mem_of_armed ha h) a).trans (if_neg (hne ha))
  | tick =>
    cases hcase with
    | quiet e _ => exact ⟨e.hostByte, e.rxBase, e.rxN, e.rxIdx, e.rxLast⟩
    | timedOut => exact ⟨hostByte_congr rfl, rfl, rfl, rfl, rfl⟩
  | status =>
    cases hcase with
    | quiet e _ => exact ⟨e.hostByte, e.armed, e.rxBase, e.rxN, e.rxIdx, e.rxLast, e.rxOut, e.rxOutlen⟩
  | feed b =>
    cases hcase with
    | quiet e _ => exact ⟨e.hostByte, e.armed, e.rxBase, e.rxN, e.rxIdx, e.rxLast, e.rxOut, e.rxOutlen⟩

/-! ## ARM and the request -/

/-- Settles O23: a refused ARM writes its answer alone, and no later command reads an answer. -/
theorem reArmLeavesTheRequestAsItWas : Obligations.ReArmLeavesTheRequestAsItWas := by
  unfold Obligations.ReArmLeavesTheRequestAsItWas
  intro base cap s ha
  exact ⟨s.respond 0x1 0, if_pos ha, rfl, ha, rfl, rfl, rfl, rfl, rfl, rfl,
    fun i n => exec_ignores_outputs i { s with now := n } _ _⟩

/-- Settles O24: the accepted ARM clears RX_OUT, which STATUS reports. -/
theorem reArmDiscardsTheOutcome : Obligations.ReArmDiscardsTheOutcome := by
  unfold Obligations.ReArmDiscardsTheOutcome
  intro base cap s ha hbase hcap hmax
  have hvalid := (invalidDescriptor_false_iff s.cfg base cap).2 ⟨hbase, hcap, hmax⟩
  exact ⟨(s.armWith base cap).respond 0x0 0, _,
    (if_neg (Bool.eq_false_iff.1 ha)).trans (if_neg (Bool.eq_false_iff.1 hvalid)), rfl, rfl⟩

/-- An ARM that answers ARMED was accepted. -/
theorem exec_arm_of_answer {base : Addr} {cap : Half} {s t : State} (h : exec (.arm base cap) s = .next t)
    (hr : t.resp = some (respWord 0x0 0)) : t = (s.armWith base cap).respond 0x0 0 := by
  obtain ⟨-, e⟩ | ⟨-, -, e⟩ | ⟨-, -, e⟩ := execArm_cases base cap s <;> (rw [exec, e] at h; cases h)
  · simp [respWord_inj] at hr
  · simp [respWord_inj] at hr
  · rfl

/-- Settles O31: a TICK that completes leaves nothing to complete, STATUS writes nothing, and a second ARM meets an
armed request. -/
theorem tickAndStatusAreIdempotent : Obligations.TickAndStatusAreIdempotent := by
  unfold Obligations.TickAndStatusAreIdempotent
  refine ⟨fun s t h => ?_, fun s t h => ?_, fun base cap s t h hr => ?_⟩
  · obtain ⟨-, e⟩ | ⟨ht, e⟩ := execTick_cases s <;> (rw [exec, e] at h; cases h)
    · exact exec_tick_waits fun ⟨ht, _⟩ => Bool.false_ne_true ht
    · exact if_neg (Bool.eq_false_iff.1 ht)
  · obtain ⟨ho, e⟩ | ⟨ho, e⟩ := execStatus_cases s <;> (rw [exec, e] at h; cases h)
    · exact if_pos ho
    · exact if_neg (Bool.eq_false_iff.1 ho)
  · rw [exec_arm_of_answer h hr]
    rfl

/-! ## How a request ends -/

/-- Settles O32: of what a command can do to an armed engine, only these two disarm it. -/
theorem onlyAFillingByteOrAnIdleTickEndsARequest : Obligations.OnlyAFillingByteOrAnIdleTickEndsARequest := by
  unfold Obligations.OnlyAFillingByteOrAnIdleTickEndsARequest
  intro i s t ha h ht
  cases exec_engineCase h with
  | quiet e _ => exact nomatch (e.armed.trans ha).symm.trans ht
  | accepted => cases ht
  | stored => exact nomatch ha.symm.trans ht
  | filled _ hn => exact .inl ⟨_, rfl, hn⟩
  | timedOut _ hidx hidle => exact .inr ⟨rfl, hidx, hidle⟩

theorem EngineCase.armed_or_completed {i : Instr} {s t : State} (h : EngineCase i s t)
    (hs : s.armed = true ∨ s.rxOut = true) : t.armed = true ∨ t.rxOut = true := by
  cases h with
  | quiet e _ =>
    rw [e.armed, e.rxOut]
    exact hs
  | accepted => exact .inl rfl
  | stored ha => exact .inl ha
  | filled | timedOut => exact .inr rfl

/-- Settles O33: no command and no access of the host takes both flags away. -/
theorem onceArmedAlwaysArmedOrCompleted : Obligations.OnceArmedAlwaysArmedOrCompleted := by
  unfold Obligations.OnceArmedAlwaysArmedOrCompleted
  refine ⟨fun base cap s t h _ hr => by rw [exec_arm_of_answer h hr]; rfl, fun s t hs hrst hstep => ?_⟩
  cases step_case hstep with
  | performed _ _ hexec => exact (exec_engineCase hexec).armed_or_completed hs
  | reset hp => exact absurd (congrArg List.head? hp) hrst
  | idle | illegal | hostStored | hostLoaded => exact hs

/-! ## Timestamps -/

/-- Settles O29: the byte's own time is the last activity, so an earlier `now` is before every deadline. -/
theorem staleTickCompletesNothing : Obligations.StaleTickCompletesNothing := by
  unfold Obligations.StaleTickCompletesNothing
  intro s t b n ha h hn
  have hlast : t.armed = true → t.rxLast = s.now := by
    cases exec_engineCase h with
    | quiet _ hbyte => exact nomatch (hbyte b rfl).symm.trans ha
    | stored | filled => exact fun _ => rfl
  refine exec_tick_waits ?_
  rintro ⟨ht, -, hidle⟩
  replace hidle : t.rxLast + t.cfg.idleTimeout ≤ n := hidle
  rw [hlast ht] at hidle
  omega

/-- A TICK right after a byte that did not fill the buffer completes the request by the byte's own deadline. -/
theorem exec_tick_after_stored {s : State} (b : Byte) (n : Nat) (ha : s.armed = true)
    (hlt : s.rxIdx.toNat < s.rxN.toNat) (hn : s.rxIdx + 1 ≠ s.rxN) :
    ∃ t u, exec (.byte b) s = .next t ∧ exec .tick { t with now := n } = .next u
      ∧ u.rxIdx = s.rxIdx + 1 ∧ u.mem = s.mem.setByte s.bufferAddr.toNat b ∧ u.rxLast = s.now
      ∧ (s.now + s.cfg.idleTimeout ≤ n → u.armed = false ∧ u.rxOut = true ∧ u.rxOutlen = s.rxIdx + 1)
      ∧ (n < s.now + s.cfg.idleTimeout → u.armed = true ∧ u.rxOut = s.rxOut) := by
  have hpos : 0 < (s.rxIdx + 1).toNat := by rw [rxIdx_succ hlt]; omega
  refine ⟨(s.storeReceived b).respond 0x0 0, ?_⟩
  by_cases hdue : s.now + s.cfg.idleTimeout ≤ n
  · exact ⟨_, exec_byte_stored ha hn,
      exec_tick_completes (s := { (s.storeReceived b).respond 0x0 0 with now := n }) ha hpos hdue, rfl, rfl, rfl,
      fun _ => ⟨rfl, rfl, rfl⟩, fun hlate => absurd hdue (Nat.not_le.2 hlate)⟩
  · exact ⟨_, exec_byte_stored ha hn,
      exec_tick_waits (s := { (s.storeReceived b).respond 0x0 0 with now := n }) fun ⟨_, _, hle⟩ => hdue hle, rfl, rfl,
      rfl, fun hle => absurd hle hdue, fun _ => ⟨ha, rfl⟩⟩

/-- Settles O30, order by order; a byte that does not fill the buffer leaves the tick to its own deadline. -/
theorem byteAndTickCommuteOnlyAsTheRulesSay : Obligations.ByteAndTickCommuteOnlyAsTheRulesSay := by
  unfold Obligations.ByteAndTickCommuteOnlyAsTheRulesSay
  intro s b tb tt hinv ha hidx hidle
  obtain ⟨harmed, -⟩ := hinv
  obtain ⟨-, -, -, hlt, hno⟩ := harmed ha
  have hread {t : State} (hm : t.mem = s.mem.setByte s.bufferAddr.toNat b) : t.hostByte s.bufferAddr = b :=
    (hostByte_of_setByte hm _).trans (if_pos rfl)
  constructor
  · rw [performAll_cons (exec_tick_completes (s := { s with now := tt }) ha hidx hidle),
      performAll_cons (exec_byte_discarded rfl)]
    exact ⟨_, rfl, rfl, rfl, rfl, rfl, hostByte_congr rfl⟩
  by_cases hn : s.rxIdx + 1 = s.rxN
  · rw [performAll_cons (exec_byte_filled (s := { s with now := tb }) ha hn),
      performAll_cons (exec_tick_waits fun ⟨ht, _⟩ => Bool.false_ne_true ht)]
    exact ⟨_, rfl, rfl, hread rfl, rfl, fun _ => ⟨rfl, rfl, rfl⟩, fun hne => absurd hn hne, fun hne => absurd hn hne⟩
  · obtain ⟨t, u, hb, ht, hidx', hmem, hlast, hdue, hearly⟩ :=
      exec_tick_after_stored (s := { s with now := tb }) b tt ha hlt hn
    rw [performAll_cons hb, performAll_cons ht]
    exact ⟨u, rfl, hidx', hread hmem, hlast, fun he => absurd he hn, fun _ hle => hdue hle,
      fun _ hlate => ⟨(hearly hlate).1, (hearly hlate).2.trans hno⟩⟩

end Sys2Proof.Machine
end

section
/-! PROOFS. The reset state (70_reset_and_hazards.md R210). -/

namespace Sys2Proof.Machine

/-- Settles O14: each register of the reset state is written out in its definition. -/
theorem resetStateHoldsTheResetValues : Obligations.ResetStateHoldsTheResetValues := by
  unfold Obligations.ResetStateHoldsTheResetValues
  exact ⟨rfl, fun cfg => ⟨rfl, rfl, rfl, rfl, rfl, rfl, rfl, rfl, rfl, rfl, rfl, rfl, rfl, rfl⟩⟩

end Sys2Proof.Machine
end

section
/-! PROOFS. The laws of the engine over runs of commands (40_reception_engine.md R105 to R107, 70_reset_and_hazards.md
hazards). -/

namespace Sys2Proof.Machine

/-! ## With no request armed -/

/-- Commands other than ARM leave an unarmed engine as it is, however many they are. -/
theorem performAll_engineSame_of_not_armed {cs : List (Instr × Nat)} {s : State} (ha : s.armed = false)
    (hcs : ∀ c ∈ cs, notArm c.1 = true) : ∃ t, (performAll cs s).2 = .next t ∧ EngineSame s t := by
  refine performAll_keeps (fun c hc u v hu h => ?_) (EngineSame.refl s)
  have hquiet := exec_engineSame_of_not_armed (hcs c hc) (s := { u with now := c.2 }) (hu.armed.trans ha) h
  exact hu.trans hquiet.now_left

/-- The byte that one command adds to those received. -/
def storedBy : Instr → State → List Byte
  | .byte b, s => if s.armed then [b] else []
  | .arm _ _, _ | .tick, _ | .status, _ | .feed _, _ => []

theorem storedBytes_cons {c : Instr × Nat} {rest : List (Instr × Nat)} {s t : State}
    (h : exec c.1 { s with now := c.2 } = .next t) :
    storedBytes (c :: rest) s = storedBy c.1 s ++ storedBytes rest t := by
  obtain ⟨i, n⟩ := c
  simp only [storedBytes, h]
  cases i with
  | byte b => cases ha : s.armed <;> simp [storedBy, ha]
  | arm | tick | status | feed => rfl

theorem storedBy_of_not_armed {s : State} (ha : s.armed = false) (i : Instr) : storedBy i s = [] := by
  cases i with
  | byte b => simp [storedBy, ha]
  | arm | tick | status | feed => rfl

theorem storedBytes_of_not_armed {cs : List (Instr × Nat)} {s : State} (ha : s.armed = false)
    (hcs : ∀ c ∈ cs, notArm c.1 = true) : storedBytes cs s = [] := by
  induction cs generalizing s with
  | nil => rfl
  | cons c rest ih =>
    obtain ⟨t, h⟩ := exec_completes c.1 { s with now := c.2 }
    have hquiet := exec_engineSame_of_not_armed (hcs c List.mem_cons_self) (s := { s with now := c.2 }) ha h
    rw [storedBytes_cons h, storedBy_of_not_armed ha,
      ih (hquiet.armed.trans ha) fun d hd => hcs d (List.mem_cons_of_mem c hd)]
    rfl

/-- Settles O26: in the drain window no command does anything to the engine. -/
theorem drainWindowDiscardsEveryByte : Obligations.DrainWindowDiscardsEveryByte := by
  unfold Obligations.DrainWindowDiscardsEveryByte
  intro cs s ha hcs
  obtain ⟨t, ht, e⟩ := performAll_engineSame_of_not_armed ha hcs
  exact ⟨storedBytes_of_not_armed ha hcs, t, ht, e.armed.trans ha, e.rxBase, e.rxN, e.rxIdx, e.rxLast, e.rxOut,
    e.rxOutlen, e.hostByte⟩

/-! ## TICKs and the deadline -/

/-- TICKs that find no request due do nothing to the engine. -/
theorem performAll_ticks_wait {ts : List Nat} {s : State}
    (hts : ∀ n ∈ ts, s.rxIdx = 0 ∨ n < s.rxLast + s.cfg.idleTimeout) :
    ∃ t, (performAll (ts.map fun n => (.tick, n)) s).2 = .next t ∧ EngineSame s t := by
  refine performAll_keeps (fun c hc u v hu h => ?_) (EngineSame.refl s)
  obtain ⟨n, hn, rfl⟩ := List.mem_map.1 hc
  cases exec_engineCase h with
  | quiet same _ => exact hu.trans same.now_left
  | timedOut _ hidx hidle =>
    replace hidx : 0 < u.rxIdx.toNat := hidx
    replace hidle : u.rxLast + u.cfg.idleTimeout ≤ n := hidle
    rw [hu.rxIdx] at hidx
    rw [hu.rxLast, hu.cfg] at hidle
    obtain h0 | hlt := hts n hn
    · rw [h0] at hidx
      exact absurd hidx (lt_irrefl 0)
    · omega

/-- Settles O28: an empty request is never due. -/
theorem emptyRequestNeverTimesOut : Obligations.EmptyRequestNeverTimesOut := by
  unfold Obligations.EmptyRequestNeverTimesOut
  intro ts s ha h0
  obtain ⟨t, ht, e⟩ := performAll_ticks_wait (ts := ts) fun _ _ => .inl h0
  exact ⟨t, ht, e.armed.trans ha, e.rxIdx.trans h0, e.rxOut, e.rxOutlen⟩

/-- The times of presented TICKs, as HD2 reads them. -/
theorem filterMap_tickNow_ticks (ts : List Nat) :
    ((ts.map fun n => Script.present .tick n).filterMap tickNow) = ts := by
  simp [List.filterMap_map, Function.comp_def, tickNow, Script.present]

/-- The last two of TICKs on time are at most TICK_MAX_INTERVAL apart. -/
theorem le_add_of_ticksOnTime {cfg : Config} {init : List Nat} {a m : Nat}
    (h : TicksOnTime cfg ((init ++ [a] ++ [m]).map fun n => Script.present .tick n)) : m ≤ a + cfg.tickMaxInterval := by
  obtain ⟨-, hchain⟩ := h
  rw [filterMap_tickNow_ticks, List.append_assoc] at hchain
  obtain ⟨-, hlast, -⟩ := List.isChain_append.1 hchain
  exact (List.isChain_pair.1 hlast).2

/-- Settles O27: the early TICKs change nothing, the first due one completes, and HD2 bounds how late it can be. -/
theorem idleRequestCompletesAtTheFirstTickAfterTheDeadline :
    Obligations.IdleRequestCompletesAtTheFirstTickAfterTheDeadline := by
  unfold Obligations.IdleRequestCompletesAtTheFirstTickAfterTheDeadline
  intro s early m ha hidx hout hearly hm
  obtain ⟨t, ht, e⟩ := performAll_ticks_wait (ts := early) (s := s) fun n hn => .inr (hearly n hn)
  refine ⟨⟨t, ht, e.armed.trans ha, e.rxOut.trans hout, e.rxIdx⟩, ?_, fun hne htime => ?_⟩
  · have hdone := exec_tick_completes (s := { t with now := m }) (e.armed.trans ha) (e.rxIdx ▸ hidx)
      (by rw [← e.rxLast, ← e.cfg] at hm; exact hm)
    rw [List.map_append, performAll_append_end _ ht, List.map_singleton, performAll_cons hdone]
    refine ⟨_, rfl, rfl, rfl, e.rxIdx, _, rfl, ?_⟩
    rw [← e.rxIdx]
    rfl
  · obtain ⟨init, a, rfl⟩ := (List.eq_nil_or_concat' early).resolve_left hne
    have := hearly a (by simp)
    have := le_add_of_ticksOnTime htime
    omega

/-! ## The bytes of one request -/

/-- What has become of a request of `s` in `t`, with the bytes `bs` received: they stand at RX_BASE and up, no other
host byte has changed, and the request is armed or has completed with their number. -/
structure Received (s t : State) (bs : List Byte) : Prop where
  engine : t.EngineInv
  rxBase : t.rxBase = s.rxBase
  count : t.rxIdx.toNat = bs.length
  bytes : ∀ k, k < bs.length → t.hostByte (s.rxBase + BitVec.ofNat 32 k) = bs.getD k 0
  others : ∀ a : Addr, bs.length ≤ (a - s.rxBase).toNat → t.hostByte a = s.hostByte a
  outcome : t.armed = true ∧ t.rxOut = false ∨ t.armed = false ∧ t.rxOut = true ∧ t.rxOutlen.toNat = bs.length

section
variable {s t u : State} {bs : List Byte}

/-- A 16-bit distance from the base is told by the address. -/
theorem add_ofNat_sub_toNat (base : Addr) {k : Nat} (hk : k < 2 ^ 16) :
    (base + BitVec.ofNat 32 k - base).toNat = k := by
  rw [add_sub_cancel_left, BitVec.toNat_ofNat]
  omega

/-- The next byte goes `bs.length` past the base. -/
theorem Received.bufferAddr (h : Received s t bs) : t.bufferAddr = s.rxBase + BitVec.ofNat 32 bs.length := by
  rw [State.bufferAddr, h.rxBase, ← h.count, BitVec.ofNat_toNat]

theorem Received.length_lt (h : Received s t bs) : bs.length < 2 ^ 16 := h.count ▸ t.rxIdx.isLt

theorem Received.of_same (h : Received s t bs) (e : EngineSame t u) : Received s u bs where
  engine := e.engineInv h.engine
  rxBase := e.rxBase.trans h.rxBase
  count := e.rxIdx ▸ h.count
  bytes := fun k hk => (e.hostByte _).trans (h.bytes k hk)
  others := fun a hk => (e.hostByte a).trans (h.others a hk)
  outcome := by rw [e.armed, e.rxOut, e.rxOutlen]; exact h.outcome

/-- A stored byte is one more received, whether or not it fills the buffer. -/
theorem Received.store {b : Byte} (h : Received s t bs) (ha : t.armed = true) (heng : u.EngineInv)
    (hbase : u.rxBase = t.rxBase) (hidx : u.rxIdx = t.rxIdx + 1) (hmem : u.mem = t.mem.setByte t.bufferAddr.toNat b)
    (hout : u.armed = true ∧ u.rxOut = false ∨ u.armed = false ∧ u.rxOut = true ∧ u.rxOutlen = u.rxIdx) :
    Received s u (bs ++ [b]) := by
  obtain ⟨harmed, -⟩ := h.engine
  obtain ⟨-, -, -, hlt, -⟩ := harmed ha
  have hlen : (bs ++ [b]).length = bs.length + 1 := by simp
  have hcount : u.rxIdx.toNat = (bs ++ [b]).length := by rw [hidx, rxIdx_succ hlt, h.count, hlen]
  have hbs := h.length_lt
  have hread := hostByte_of_setByte hmem
  rw [h.bufferAddr] at hread
  have hdist := add_ofNat_sub_toNat s.rxBase hbs
  refine ⟨heng, hbase.trans h.rxBase, hcount, fun k hk => ?_, fun a hk => ?_, ?_⟩
  · by_cases hlast : k = bs.length
    · rw [hread, hlast, if_pos rfl]
      simp
    · have hk' : k < bs.length := by omega
      have hne : s.rxBase + BitVec.ofNat 32 k ≠ s.rxBase + BitVec.ofNat 32 bs.length := fun e => by
        rw [← e, add_ofNat_sub_toNat _ (hk'.trans hbs)] at hdist
        exact hlast hdist
      rw [hread, if_neg hne, h.bytes k hk', List.getD_append _ _ _ _ hk']
  · rw [hread, if_neg, h.others a (by omega)]
    rintro rfl
    omega
  · rw [← hcount]
    exact hout.imp_right fun ⟨hu, ho, hl⟩ => ⟨hu, ho, congrArg _ hl⟩

/-- One command other than ARM: the bytes received are those before and the one it stores. -/
theorem Received.exec {i : Instr} {n : Nat} (h : Received s t bs) (hi : notArm i = true)
    (he : Machine.exec i { t with now := n } = .next u) : Received s u (bs ++ storedBy i t) := by
  have heng : u.EngineInv := exec_engineInv (s := { t with now := n }) h.engine he
  cases exec_engineCase he with
  | quiet same hbyte =>
    have hnone : storedBy i t = [] := by
      cases i with
      | byte b => exact storedBy_of_not_armed (s := t) (hbyte b rfl) _
      | arm | tick | status | feed => rfl
    rw [hnone, List.append_nil]
    exact h.of_same same.now_left
  | accepted => cases hi
  | @stored b _ ha hn =>
    obtain ⟨harmed, -⟩ := h.engine
    obtain ⟨-, -, -, -, hno⟩ := harmed ha
    rw [storedBy, if_pos ha]
    exact h.store ha heng rfl rfl rfl (.inl ⟨ha, hno⟩)
  | @filled b _ ha hn =>
    rw [storedBy, if_pos ha]
    exact h.store ha heng rfl rfl rfl (.inr ⟨rfl, rfl, hn.symm⟩)
  | timedOut ha =>
    rw [storedBy, List.append_nil]
    exact ⟨heng, h.rxBase, h.count, h.bytes, h.others, .inr ⟨rfl, rfl, h.count⟩⟩

theorem Received.performAll {cs : List (Instr × Nat)} (h : Received s t bs) (hcs : ∀ c ∈ cs, notArm c.1 = true) :
    ∃ u, (Machine.performAll cs t).2 = .next u ∧ Received s u (bs ++ storedBytes cs t) := by
  induction cs generalizing t bs with
  | nil => exact ⟨t, rfl, by rwa [storedBytes, List.append_nil]⟩
  | cons c rest ih =>
    obtain ⟨v, hv⟩ := exec_completes c.1 { t with now := c.2 }
    rw [performAll_cons hv, storedBytes_cons hv, ← List.append_assoc]
    exact ih (h.exec (hcs c List.mem_cons_self) hv) fun d hd => hcs d (List.mem_cons_of_mem c hd)

end

/-- Settles O25: from a fresh request, by the bytes received so far. -/
theorem requestCompletesOnceWithTheBytesStored : Obligations.RequestCompletesOnceWithTheBytesStored := by
  unfold Obligations.RequestCompletesOnceWithTheBytesStored
  intro cs s hinv ha h0 hcs
  obtain ⟨harmed, -⟩ := id hinv
  obtain ⟨-, -, -, -, hno⟩ := harmed ha
  have hfresh : Received s s [] :=
    ⟨hinv, rfl, by rw [h0]; rfl, fun k hk => absurd hk (Nat.not_lt_zero k), fun _ _ => rfl, .inl ⟨ha, hno⟩⟩
  obtain ⟨t, ht, h⟩ := hfresh.performAll hcs
  exact ⟨t, ht, h.count, h.bytes, h.others, h.outcome⟩

/-! ## The last activity -/

/-- RX_LAST is what it was, or the time that the command sampled. -/
theorem exec_rxLast {i : Instr} {s t : State} (h : exec i s = .next t) :
    t.rxLast = s.rxLast ∨ samplesNow i = true ∧ t.rxLast = s.now := by
  cases exec_engineCase h with
  | quiet same _ => exact .inl same.rxLast
  | accepted | stored | filled => exact .inr ⟨rfl, rfl⟩
  | timedOut => exact .inl rfl

theorem sampledNow_present (i : Instr) (n : Nat) :
    sampledNow (Script.present i n) = if samplesNow i = true then some n else none := by
  simp [sampledNow, Script.present]

/-- Along an order that keeps HD6, a sample is not after a later one. -/
theorem KeepsTime.le_of_mem {c d : Instr × Nat} {cs : List (Instr × Nat)}
    (h : KeepsTime ((c :: cs).map fun c => Script.present c.1 c.2)) (hd : d ∈ cs) (hc : samplesNow c.1 = true)
    (hs : samplesNow d.1 = true) : c.2 ≤ d.2 := by
  rw [KeepsTime, List.map_cons, List.filterMap_cons, sampledNow_present, if_pos hc] at h
  refine List.rel_of_pairwise_cons h (List.mem_filterMap.2 ⟨Script.present d.1 d.2, List.mem_map_of_mem hd, ?_⟩)
  rw [sampledNow_present, if_pos hs]

theorem KeepsTime.tail {c : Instr × Nat} {cs : List (Instr × Nat)}
    (h : KeepsTime ((c :: cs).map fun c => Script.present c.1 c.2)) :
    KeepsTime (cs.map fun c => Script.present c.1 c.2) :=
  List.Pairwise.sublist ((List.sublist_cons_self _ _).filterMap _) h

/-- Settles O58, command by command: RX_LAST moves only to the time of a sample, and no later sample is before it. -/
theorem lastActivityNeverRunsAheadOfTime : Obligations.LastActivityNeverRunsAheadOfTime := by
  unfold Obligations.LastActivityNeverRunsAheadOfTime
  intro cs ds s t htime hlast hrun
  induction cs generalizing s with
  | nil =>
    cases hrun
    exact hlast
  | cons c rest ih =>
    obtain ⟨u, hu⟩ := exec_completes c.1 { s with now := c.2 }
    rw [performAll_cons hu] at hrun
    refine ih u htime.tail (fun d hd hs => ?_) hrun
    obtain hkeep | ⟨hsample, hnow⟩ := exec_rxLast hu
    · exact hkeep.trans_le (hlast d (List.mem_cons_of_mem c hd) hs)
    · exact hnow.trans_le (htime.le_of_mem hd hsample hs)

end Sys2Proof.Machine
end

section
/-! PROOFS. The laws of the parser that one FEED shows (41_frame_parser.md). -/

namespace Sys2Proof.Machine

/-! ## The outcome, read off the response -/

/-- A FEED answers a code exactly if its outcome has that code. -/
theorem finishFeed_resp_iff (u : State) (out : FeedOutcome) (c : BitVec 4) :
    (u.finishFeed out).resp = some (respWord c 0) ↔ out.code = c := by
  rw [finishFeed_resp, Option.some_inj, respWord_inj, and_iff_left rfl]

/-! ## The frame of FEED -/

theorem fbByte_fbPush_of_ne (s : State) (b : Byte) {j : Nat} (h : j ≠ s.pIdx.toNat) :
    (s.fbPush b).fbByte j = s.fbByte j :=
  (fbByte_of_setByte (fbPush_fb s b) (fbPush_resets s b) j).trans (if_neg h)

/-- A FEED stores at most one byte of FB: at offset 0 a byte taken as sync-1, at the write index one taken later. -/
theorem FeedCase.fbByte {b : Byte} {s u : State} {out : FeedOutcome} (h : FeedCase b s (u, out)) (j : Nat)
    (hj : (s.pStage ≠ .awaitSync1 ∧ s.cfg.frameCap ≤ s.pIdx.toNat)
      ∨ ((s.pStage = .awaitSync1 ∨ (s.pStage = .awaitSync2 ∧ b ≠ 0x4D)) ∧ (b ≠ 0x42 ∨ j ≠ 0))
      ∨ (s.pStage ≠ .awaitSync1 ∧ (s.pStage = .awaitSync2 → b = 0x4D) ∧ j ≠ s.pIdx.toNat)) :
    u.fbByte j = s.fbByte j := by
  cases h with
  | dropped | discarded | badSync => rfl
  | sync1 hs hb =>
    have h0 : j ≠ 0 := by simpa [hs, hb] using hj
    exact (fbByte_fbWrite s 0 j 0x42).trans (if_neg h0)
  | resync hs hi hb =>
    have h0 : j ≠ 0 := by simpa [hs, hb, Nat.not_le.2 hi] using hj
    exact (fbByte_fbWrite s 0 j 0x42).trans (if_neg h0)
  | sync2 hs hi | lenHi hs hi | badLen hs hi | goodLen hs hi | data hs hi | checksumHi hs hi | badChecksum hs hi
  | shortFrame hs hi | validFrame hs hi =>
    have hne : j ≠ s.pIdx.toNat := by simp_all [Nat.not_le.2 hi]
    exact fbByte_fbPush_of_ne s _ hne

/-- Settles O44: the parser's frame, and the one byte of FB that the case stores. -/
theorem feedChangesOnlyTheParser : Obligations.FeedChangesOnlyTheParser := by
  unfold Obligations.FeedChangesOnlyTheParser
  intro b s
  have f := exec_feed_parserOnly (exec_feed b s)
  exact ⟨_, exec_feed b s, f.armed, f.rxBase, f.rxN, f.rxIdx, f.rxLast, f.rxOut, f.rxOutlen, f.cfg, f.now, f.loaded,
    f.pending, hostByte_congr f.mem,
    fun j hj => ((finishFeed_parserSame _ _).fbByte j).trans ((feedStep_case b s).fbByte j hj)⟩

/-! ## Terminal outcomes -/

/-- Settles O47, case by case: what is not PENDING reset the parser, or re-entered AwaitSync1 with a rejected 0x42. -/
theorem everyErrorReturnsToSyncSearch : Obligations.EveryErrorReturnsToSyncSearch := by
  unfold Obligations.EveryErrorReturnsToSyncSearch
  intro b s t h hr
  obtain ⟨u, out, hcase, rfl⟩ := exec_feed_case h
  rw [Ne, finishFeed_resp_iff] at hr
  simp only [finishFeed_pStage, finishFeed_pIdx, finishFeed_pLen, finishFeed_pAcc]
  cases hcase with
  | sync1 | discarded | sync2 | lenHi | goodLen | data | checksumHi => exact absurd rfl hr
  | dropped | badSync | badLen | badChecksum | shortFrame | validFrame => exact .inl ⟨rfl, rfl, rfl, rfl⟩
  | resync hs _ hb => exact .inr ⟨hs, hb, rfl, rfl, rfl, rfl⟩

/-- Settles O46: only the checksum validator answers OK, and there the invariant says what P_ACC is. -/
theorem okOnlyAfterAValidatedFrame : Obligations.OkOnlyAfterAValidatedFrame := by
  unfold Obligations.OkOnlyAfterAValidatedFrame
  intro b s t hinv h hr
  obtain ⟨-, -, hcap, -⟩ := (legal_iff _).1 hinv.cfg
  obtain ⟨u, out, hcase, rfl⟩ := exec_feed_case h
  rw [finishFeed_resp_iff] at hr
  cases hcase with
  | dropped | sync1 | discarded | sync2 | resync | badSync | lenHi | badLen | goodLen | data | checksumHi | badChecksum
  | shortFrame => exact absurd hr (by decide)
  | validFrame hs hi hc hl =>
    have hparser := hinv.parser
    simp only [State.ParserInv, hs] at hparser
    obtain ⟨-, -, hacc, h1, -⟩ := hparser
    rw [fbPush_receivedChecksum b h1 hi hcap] at hc
    exact ⟨hs, hc, hl, by rw [byteSum_fb]; exact hacc, finishFeed_pStage _ _⟩

/-! ## The accumulator at the checksum -/

/-- Settles O45: the row of ReadChecksumHi, which the FEED has just entered. -/
theorem accumulatorIsTheFrameSumAtTheChecksum : Obligations.AccumulatorIsTheFrameSumAtTheChecksum := by
  unfold Obligations.AccumulatorIsTheFrameSumAtTheChecksum
  intro b s t hinv _ h ht hlong
  have hparser := (exec_inv hinv h).parser
  simp only [State.ParserInv, ht] at hparser
  obtain ⟨-, -, hacc, ⟨hat, -⟩ | ⟨-, h2, hpol⟩⟩ := hparser
  · exact ⟨hat, by rw [byteSum_fb]; exact hacc⟩
  · obtain hskip | hlen := hlong
    · rw [hpol] at hskip
      cases hskip
    · rw [h2] at hlen
      exact absurd hlen (by decide)

/-! ## Overflow -/

/-- Under SKIP_DATA and ONE_BYTE_DATA every stage that stores a byte has room for it. -/
theorem State.Inv.idx_lt {s : State} (h : s.Inv) (hpol : s.cfg.zeroData ≠ .stallInData) (hs : s.pStage ≠ .awaitSync1) :
    s.pIdx.toNat < s.cfg.frameCap := by
  obtain ⟨-, hmin, -⟩ := (legal_iff _).1 h.cfg
  have hparser := h.parser
  cases hst : s.pStage <;> simp only [State.ParserInv, hst] at hparser
  case awaitSync1 => exact absurd hst hs
  case awaitSync2 | readLenHi | readLenLo =>
    obtain ⟨hidx, -⟩ := hparser
    rw [hidx]
    exact lt_of_lt_of_le (by decide) hmin
  case readData =>
    obtain ⟨⟨-, hle⟩, -, -, -, -, hlt | ⟨-, -, hidx⟩ | ⟨-, hstall⟩⟩ := hparser
    · rw [checksumOffset_eq] at hlt
      omega
    · rw [hidx]
      exact lt_of_lt_of_le (by decide) hmin
    · exact absurd hstall hpol
  case readChecksumHi =>
    obtain ⟨hok, -, -, hat⟩ := hparser
    obtain ⟨-, -, hroom⟩ := ChecksumHiAt.bounds hok hat
    omega
  case readChecksumLo =>
    obtain ⟨hok, -, -, h1, hat⟩ := hparser
    obtain ⟨-, -, hroom⟩ := ChecksumHiAt.bounds hok hat
    omega

/-- Settles O54: the guard needs a full frame buffer outside AwaitSync1. -/
theorem noOverflowUnderTerminatingPolicies : Obligations.NoOverflowUnderTerminatingPolicies := by
  unfold Obligations.NoOverflowUnderTerminatingPolicies
  intro b s t hinv hpol h hr
  obtain ⟨u, out, hcase, rfl⟩ := exec_feed_case h
  rw [finishFeed_resp_iff] at hr
  cases hcase with
  | dropped hs hi => exact absurd (hinv.idx_lt hpol hs) (Nat.not_lt.2 hi)
  | sync1 | discarded | sync2 | resync | badSync | lenHi | badLen | goodLen | data | checksumHi | badChecksum
  | shortFrame => exact absurd hr (by decide)
  | validFrame => exact absurd (show 0x1#4 = 0x5#4 from hr) (by decide)

end Sys2Proof.Machine
end

section
/-! PROOFS. FEED outcomes depend only on the bytes fed (41_frame_parser.md R146). -/

namespace Sys2Proof.Machine

/-! ## A FEED is determined by its case -/

/-- The cases of FEED are exclusive: the one whose conditions hold is what FEED does. -/
theorem FeedCase.eq {b : Byte} {s : State} {r : State × FeedOutcome} (h : FeedCase b s r) : feedStep b s = r := by
  cases h with
  | dropped hs hi => exact feedStep_of_guard b ((overflows_iff s).2 ⟨hs, hi⟩)
  | sync1 hs hb =>
    rw [feedStep_of_no_guard b (.inl hs), stageStep_awaitSync1 hs, hb, stageAwaitSync1_sync]
  | discarded hs hb =>
    rw [feedStep_of_no_guard b (.inl hs), stageStep_awaitSync1 hs, stageAwaitSync1_of_ne s hb]
  | sync2 hs hi hb =>
    rw [feedStep_of_no_guard b (.inr hi), stageStep_awaitSync2 hs]
    exact if_pos hb
  | resync hs hi hb =>
    rw [feedStep_of_no_guard b (.inr hi), stageStep_awaitSync2 hs, hb]
    rfl
  | badSync hs hi h2 h1 =>
    rw [feedStep_of_no_guard b (.inr hi), stageStep_awaitSync2 hs]
    exact (if_neg h2).trans (if_neg h1)
  | lenHi hs hi =>
    rw [feedStep_of_no_guard b (.inr hi), stageStep_readLenHi hs]
    rfl
  | badLen hs hi hl =>
    rw [feedStep_of_no_guard b (.inr hi), stageStep_readLenLo hs]
    exact if_pos hl
  | goodLen hs hi hl =>
    rw [feedStep_of_no_guard b (.inr hi), stageStep_readLenLo hs]
    obtain ⟨hbad, -⟩ | ⟨-, e⟩ := stageReadLenLo_cases b s
    · rw [hl] at hbad
      cases hbad
    · exact e
  | data hs hi => rw [feedStep_of_no_guard b (.inr hi), stageStep_readData hs, stageReadData_eq, hs]
  | checksumHi hs hi =>
    rw [feedStep_of_no_guard b (.inr hi), stageStep_readChecksumHi hs]
    rfl
  | badChecksum hs hi hc =>
    rw [feedStep_of_no_guard b (.inr hi), stageStep_readChecksumLo hs]
    exact if_neg hc
  | shortFrame hs hi hc hl =>
    rw [feedStep_of_no_guard b (.inr hi), stageStep_readChecksumLo hs]
    exact (if_pos hc).trans (if_neg (Nat.not_le.2 hl))
  | validFrame hs hi hc hl =>
    rw [feedStep_of_no_guard b (.inr hi), stageStep_readChecksumLo hs]
    exact (if_pos hc).trans (if_pos hl)

theorem FeedCase.exec_eq {b : Byte} {s u : State} {out : FeedOutcome} (h : FeedCase b s (u, out)) :
    exec (.feed b) s = .next (u.finishFeed out) := by
  rw [exec_feed, h.eq]

/-! ## Parsers that agree -/

/-- The parsers of two states agree: their registers, and FB at every offset or below the write index. -/
structure ParserAgree (everywhere : Prop) (s t : State) : Prop where
  cfg : t.cfg = s.cfg
  pStage : t.pStage = s.pStage
  pIdx : t.pIdx = s.pIdx
  pLen : t.pLen = s.pLen
  pAcc : t.pAcc = s.pAcc
  fb : ∀ j, everywhere ∨ j < s.pIdx.toNat → t.fbByte j = s.fbByte j

section
variable {everywhere : Prop} {s t u v : State} {b : Byte}

theorem ParserAgree.refl (s : State) : ParserAgree everywhere s s := ⟨rfl, rfl, rfl, rfl, rfl, fun _ _ => rfl⟩

theorem ParserAgree.of_same (h : ParserAgree everywhere s t) (hs : ParserSame s u) (ht : ParserSame t v) :
    ParserAgree everywhere u v where
  cfg := ht.cfg.trans (h.cfg.trans hs.cfg.symm)
  pStage := ht.pStage.trans (h.pStage.trans hs.pStage.symm)
  pIdx := ht.pIdx.trans (h.pIdx.trans hs.pIdx.symm)
  pLen := ht.pLen.trans (h.pLen.trans hs.pLen.symm)
  pAcc := ht.pAcc.trans (h.pAcc.trans hs.pAcc.symm)
  fb := fun j hj => (ht.fbByte j).trans ((h.fb j (hs.pIdx ▸ hj)).trans (hs.fbByte j).symm)

theorem ParserAgree.parserReset (h : ParserAgree everywhere s t) :
    ParserAgree everywhere s.parserReset t.parserReset :=
  ⟨h.cfg, rfl, rfl, rfl, rfl, fun j hj => h.fb j (hj.imp_right fun hlt => absurd hlt (Nat.not_lt_zero j))⟩

/-- Both take a sync-1. -/
theorem ParserAgree.sync1 (h : ParserAgree everywhere s t) : ParserAgree everywhere
    { s.fbWrite 0 0x42 with pIdx := 1, pAcc := 0x0042, pStage := .awaitSync2 }
    { t.fbWrite 0 0x42 with pIdx := 1, pAcc := 0x0042, pStage := .awaitSync2 } := by
  refine ⟨h.cfg, rfl, rfl, h.pLen, rfl, fun j hj => ?_⟩
  refine (fbByte_fbWrite t 0 j 0x42).trans (.trans ?_ (fbByte_fbWrite s 0 j 0x42).symm)
  split_ifs with h0
  · rfl
  · exact h.fb j (hj.imp_right fun hlt => absurd (Nat.lt_one_iff.1 hlt) h0)

/-- Both store the same byte at the write index. -/
theorem ParserAgree.push {len len' acc acc' : Half} {st st' : Stage} (h : ParserAgree everywhere s t)
    (hlen : len' = len) (hacc : acc' = acc) (hst : st' = st) : ParserAgree everywhere
      { s.fbPush b with pLen := len, pAcc := acc, pStage := st }
      { t.fbPush b with pLen := len', pAcc := acc', pStage := st' } := by
  refine ⟨h.cfg, hst, congrArg (· + 1) h.pIdx, hlen, hacc, fun j hj => ?_⟩
  have hs : (s.fbPush b).fbByte j = _ := fbByte_of_setByte (fbPush_fb s b) (fbPush_resets s b) j
  have ht : (t.fbPush b).fbByte j = _ := fbByte_of_setByte (fbPush_fb t b) (fbPush_resets t b) j
  refine ht.trans (.trans ?_ hs.symm)
  rw [h.pIdx]
  split_ifs with hne
  · rfl
  · refine h.fb j (hj.imp_right fun hlt => ?_)
    have hsucc : (s.pIdx + 1).toNat ≤ s.pIdx.toNat + 1 := by
      rw [BitVec.toNat_add]
      exact Nat.mod_le _ _
    replace hlt : j < (s.pIdx + 1).toNat := hlt
    omega

theorem ParserAgree.receivedChecksum (h : ParserAgree everywhere s t) (hpos : everywhere ∨ 0 < s.pIdx.toNat) :
    t.receivedChecksum = s.receivedChecksum := by
  rw [State.receivedChecksum, State.receivedChecksum, h.pIdx, h.fb _ (hpos.imp_right fun hp => by omega),
    h.fb _ (hpos.imp_right fun hp => by omega)]

theorem ParserAgree.decodeReading (h : ParserAgree everywhere s t) (hlen : everywhere ∨ 28 ≤ s.pIdx.toNat) :
    t.decodeReading = s.decodeReading := by
  have hfield (i : Nat) (hi : i < 12) : t.fbField i = s.fbField i := by
    rw [State.fbField, State.fbField, h.fb _ (hlen.imp_right fun hl => by omega),
      h.fb _ (hlen.imp_right fun hl => by omega)]
  simp [State.decodeReading, hfield]

/-! ## Agreeing parsers go on agreeing -/

/-- A frame that is long enough to be OK holds every byte of the reading. -/
theorem State.Inv.reading_held (h : s.Inv) (hs : s.pStage = .readChecksumLo) (hl : 28 ≤ s.pLen.toNat) :
    28 ≤ s.pIdx.toNat := by
  have hparser := h.parser
  simp only [State.ParserInv, hs] at hparser
  obtain ⟨hok, -, -, -, hat⟩ := hparser
  obtain ⟨-, hoff, -⟩ := ChecksumHiAt.bounds hok hat
  rw [checksumOffset_eq] at hoff
  omega

/-- Fed the same byte, agreeing parsers answer the same and agree again. FB above the write index counts only where it
is taken to agree, because under the invariant no rule reads it (10_state.md R34). -/
theorem FeedCase.agree {out : FeedOutcome} (hc : FeedCase b s (u, out)) (h : ParserAgree everywhere s t)
    (hinv : everywhere ∨ s.Inv) : ∃ v, FeedCase b t (v, out) ∧ ParserAgree everywhere u v := by
  have hroom (hi : s.pIdx.toNat < s.cfg.frameCap) : t.pIdx.toNat < t.cfg.frameCap := by rwa [h.pIdx, h.cfg]
  have hstage {st : Stage} (hs : s.pStage = st) : t.pStage = st := h.pStage.trans hs
  have hpush : ParserAgree everywhere (s.fbPush b) (t.fbPush b) := h.push h.pLen h.pAcc h.pStage
  have hlenLo : ParserAgree everywhere (s.takeLenLo b) (t.takeLenLo b) :=
    h.push (by rw [h.pLen]) (by rw [h.pAcc]) h.pStage
  have hdata : ParserAgree everywhere (s.takeData b) (t.takeData b) :=
    h.push h.pLen (by rw [h.pAcc, h.pLen, h.pIdx]) h.pStage
  have hnext (hi : s.pIdx.toNat < s.cfg.frameCap) : everywhere ∨ s.Inv ∧ (s.pIdx + 1).toNat = s.pIdx.toNat + 1 :=
    hinv.imp_right fun hs => by
      obtain ⟨-, -, hcap, -⟩ := (legal_iff _).1 hs.cfg
      exact ⟨hs, pIdx_succ hcap hi⟩
  have hsum (hi : s.pIdx.toNat < s.cfg.frameCap) : (t.fbPush b).receivedChecksum = (s.fbPush b).receivedChecksum :=
    hpush.receivedChecksum ((hnext hi).imp_right fun ⟨_, hn⟩ => by rw [fbPush_pIdx]; omega)
  cases hc with
  | dropped hs hi => exact ⟨_, .dropped (by rwa [h.pStage]) (by rwa [h.pIdx, h.cfg]), h.parserReset⟩
  | sync1 hs hb => exact ⟨_, .sync1 (hstage hs) hb, h.sync1⟩
  | discarded hs hb => exact ⟨_, .discarded (hstage hs) hb, h⟩
  | sync2 hs hi hb => exact ⟨_, .sync2 (hstage hs) (hroom hi) hb, h.push h.pLen (by rw [h.pAcc]) rfl⟩
  | resync hs hi hb => exact ⟨_, .resync (hstage hs) (hroom hi) hb, h.parserReset.sync1⟩
  | badSync hs hi h2 h1 => exact ⟨_, .badSync (hstage hs) (hroom hi) h2 h1, h.parserReset⟩
  | lenHi hs hi => exact ⟨_, .lenHi (hstage hs) (hroom hi), h.push rfl (by rw [h.pAcc]) rfl⟩
  | badLen hs hi hl =>
    exact ⟨_, .badLen (hstage hs) (hroom hi) (by rw [h.cfg, hlenLo.pLen]; exact hl), hlenLo.parserReset⟩
  | goodLen hs hi hl =>
    exact ⟨_, .goodLen (hstage hs) (hroom hi) (by rw [h.cfg, hlenLo.pLen]; exact hl),
      h.push hlenLo.pLen hlenLo.pAcc (by rw [hlenLo.pLen, h.cfg])⟩
  | data hs hi =>
    exact ⟨_, .data (hstage hs) (hroom hi), h.push h.pLen hdata.pAcc
      (by rw [State.dataComplete, State.dataComplete, hdata.pIdx, hdata.pLen, hdata.cfg])⟩
  | checksumHi hs hi => exact ⟨_, .checksumHi (hstage hs) (hroom hi), h.push h.pLen h.pAcc rfl⟩
  | badChecksum hs hi hc =>
    exact ⟨_, .badChecksum (hstage hs) (hroom hi) (by rwa [hsum hi, h.pAcc]), hpush.parserReset⟩
  | shortFrame hs hi hc hl =>
    exact ⟨_, .shortFrame (hstage hs) (hroom hi) (by rwa [hsum hi, h.pAcc]) (by rwa [h.pLen]), hpush.parserReset⟩
  | validFrame hs hi hc hl =>
    have hread := hpush.decodeReading ((hnext hi).imp_right fun ⟨hs', hn⟩ => by
      have := hs'.reading_held hs hl
      rw [fbPush_pIdx]
      omega)
    exact ⟨_, hread ▸ .validFrame (hstage hs) (hroom hi) (by rwa [hsum hi, h.pAcc]) (by rwa [h.pLen]),
      hpush.parserReset⟩

end

/-! ## Whole orders -/

section
variable {everywhere : Prop} {s t : State}

theorem feedOutputs_cons_feed {b : Byte} {n : Nat} {cs : List (Instr × Nat)}
    (h : exec (.feed b) { s with now := n } = .next t) :
    feedOutputs ((.feed b, n) :: cs) s = (t.resp, t.reading) :: feedOutputs cs t := by
  simp [feedOutputs, h]

/-- Whatever stands between the FEEDs, the FEEDs of an order answer as the bare FEEDs of its bytes do. -/
theorem feedOutputs_eq_of_agree (cs : List (Instr × Nat)) (h : ParserAgree everywhere s t)
    (hinv : everywhere ∨ s.Inv) :
    feedOutputs cs s = feedOutputs ((fedBytes cs).map fun b => (.feed b, 0)) t := by
  induction cs generalizing s t with
  | nil => rfl
  | cons c rest ih =>
    obtain ⟨i, n⟩ := c
    obtain ⟨u, hu⟩ := exec_completes i { s with now := n }
    have hnow (s : State) (n : Nat) : ParserSame s { s with now := n } := ⟨rfl, rfl, rfl, rfl, rfl, rfl, rfl⟩
    have hinv' : everywhere ∨ u.Inv := hinv.imp_right fun hs => exec_inv (hs.fields ..) hu
    by_cases hi : ∃ b, i = .feed b
    · obtain ⟨b, rfl⟩ := hi
      obtain ⟨u, out, hcase, rfl⟩ := exec_feed_case hu
      obtain ⟨v, hcase', hagree⟩ := hcase.agree (h.of_same (hnow s n) (hnow t 0))
        (hinv.imp_right fun hs => hs.fields ..)
      have hrest := ih (hagree.of_same (finishFeed_parserSame u out) (finishFeed_parserSame v out)) hinv'
      rw [feedOutputs_cons_feed hu, fedBytes, List.map_cons, feedOutputs_cons_feed hcase'.exec_eq, hrest]
      simp only [finishFeed_resp, finishFeed_reading]
    · have hagree := h.of_same (hnow s n) (hnow t t.now)
      have hrest := ih (hagree.of_same (exec_parserSame (not_exists.1 hi) hu) (hnow t t.now)) hinv'
      cases i with
      | feed b => exact absurd ⟨b, rfl⟩ hi
      | arm | byte | tick | status =>
        simp only [feedOutputs, hu, fedBytes]
        exact hrest

end

/-- Settles O55: both orders answer as the bare FEEDs of their common bytes, from one parser. -/
theorem feedOutcomesDependOnlyOnTheBytesFed : Obligations.FeedOutcomesDependOnlyOnTheBytesFed := by
  unfold Obligations.FeedOutcomesDependOnlyOnTheBytesFed
  intro cs ds s t hfed hcfg hstage hidx hlen hacc
  refine ⟨fun hs ht hfb => ?_, fun hfb => ?_⟩
  · have h : ParserAgree False s t := ⟨hcfg.symm, hstage.symm, hidx.symm, hlen.symm, hacc.symm,
      fun j hj => (hfb j (hj.resolve_left id)).symm⟩
    rw [feedOutputs_eq_of_agree cs h (.inr hs),
      feedOutputs_eq_of_agree ds (ParserAgree.refl (everywhere := False) t) (.inr ht), hfed]
  · have h : ParserAgree True s t := ⟨hcfg.symm, hstage.symm, hidx.symm, hlen.symm, hacc.symm,
      fun j _ => (hfb j).symm⟩
    rw [feedOutputs_eq_of_agree cs h (.inl trivial),
      feedOutputs_eq_of_agree ds (ParserAgree.refl (everywhere := True) t) (.inl trivial), hfed]

end Sys2Proof.Machine
end

section
/-! PROOFS. The parser along the bytes of a frame: what it holds, and what it answers (41_frame_parser.md R133 to
R143). -/

namespace Sys2Proof.Machine

/-! ## Answers to bytes in order -/

theorem feedAll_single {b : Byte} {t u : State} {out : FeedOutcome} (h : FeedCase b t (u, out)) :
    feedAll [b] t = ([feedOutput t (respWord out.code 0) (readingOf out)], .next (u.finishFeed out)) := by
  rw [feedAll_cons [] h.exec_eq]
  have hl := (exec_feed_parserOnly h.exec_eq).loaded
  rw [finishFeed_loaded] at hl
  simp [feedAll, performAll, State.output, feedOutput, hl]

theorem feedAll_trans {a b : List Byte} {o o' : List Output} {s t u : State} (ha : feedAll a s = (o, .next t))
    (hb : feedAll b t = (o', .next u)) : feedAll (a ++ b) s = (o ++ o', .next u) := by
  rw [feedAll_append a ha, hb]

/-- Fed `bs`, the parser answers PENDING to each. The outputs show what `s` has loaded. -/
def Pends (s t : State) (bs : List Byte) (u : State) : Prop :=
  feedAll bs t = (List.replicate bs.length (feedOutput s (respWord 0x0 0) none), .next u)

section
variable {s t u v : State} {a bs : List Byte} {o : List Output}

theorem Pends.nil (s t : State) : Pends s t [] t := rfl

theorem Pends.then (h : Pends s t a u) (hb : feedAll bs u = (o, .next v)) :
    feedAll (a ++ bs) t = (List.replicate a.length (feedOutput s (respWord 0x0 0) none) ++ o, .next v) :=
  feedAll_trans h hb

theorem Pends.append (h : Pends s t a u) (hb : Pends s u bs v) : Pends s t (a ++ bs) v := by
  rw [Pends, h.then hb, List.length_append, List.replicate_add]

theorem Pends.single {b : Byte} (hl : t.loaded = s.loaded) (h : FeedCase b t (u, .pending)) :
    Pends s t [b] (u.finishFeed .pending) := by
  rw [Pends, feedAll_single h, feedOutput, hl]
  rfl

end

/-! ## What the parser holds -/

/-- The parser of `t`, run from `s`, searches for sync. -/
structure Searching (s t : State) : Prop where
  cfg : t.cfg = s.cfg
  loaded : t.loaded = s.loaded
  stage : t.pStage = .awaitSync1

/-- The parser of `t`, run from `s`, is in stage `st` with the frame bytes `p` held, LEN and the sum so far. -/
structure Holding (s t : State) (st : Stage) (p : List Byte) (len acc : Half) : Prop where
  cfg : t.cfg = s.cfg
  loaded : t.loaded = s.loaded
  stage : t.pStage = st
  idx : t.pIdx.toNat = p.length
  fb : ∀ j, j < p.length → t.fbByte j = p.getD j 0
  len : t.pLen = len
  acc : t.pAcc = acc

section
variable {s t u : State} {st : Stage} {p : List Byte} {len acc : Half}

theorem Searching.refl (h : s.pStage = .awaitSync1) : Searching s s := ⟨rfl, rfl, h⟩

/-- Every terminal outcome but the re-entry ends so. -/
theorem searching_of_parserReset (out : FeedOutcome) (hc : u.cfg = s.cfg) (hl : u.loaded = s.loaded) :
    Searching s (u.parserReset.finishFeed out) :=
  ⟨(finishFeed_cfg ..).trans hc, (finishFeed_loaded ..).trans hl, finishFeed_pStage ..⟩

/-- A sync-1 taken, in either way, is the one byte held. -/
theorem holding_of_sync1 (out : FeedOutcome) (hc : u.cfg = s.cfg) (hl : u.loaded = s.loaded) :
    Holding s (({ u.fbWrite 0 0x42 with pIdx := 1, pAcc := 0x0042, pStage := .awaitSync2 } : State).finishFeed out)
      .awaitSync2 [0x42] u.pLen 0x0042 where
  cfg := (finishFeed_cfg ..).trans hc
  loaded := (finishFeed_loaded ..).trans hl
  stage := finishFeed_pStage ..
  idx := congrArg BitVec.toNat (finishFeed_pIdx ..)
  fb := by
    intro j hj
    obtain rfl : j = 0 := Nat.lt_one_iff.1 hj
    exact ((finishFeed_parserSame _ out).fbByte 0).trans ((fbByte_fbWrite u 0 0 0x42).trans (if_pos rfl))
  len := finishFeed_pLen ..
  acc := finishFeed_pAcc ..

/-- The next byte's own stage runs while the frame is shorter than FRAME_CAP. -/
theorem Holding.room (h : Holding s t st p len acc) (hp : p.length < s.cfg.frameCap) :
    t.pIdx.toNat < t.cfg.frameCap := by
  rw [h.idx, h.cfg]
  exact hp

theorem Holding.idx_succ (h : Holding s t st p len acc) (hcap : s.cfg.frameCap ≤ 65539)
    (hp : p.length < s.cfg.frameCap) : (t.pIdx + 1).toNat = p.length + 1 := by
  rw [pIdx_succ (h.cfg ▸ hcap) (h.room hp), h.idx]

/-- A byte stored at the write index is one more byte held. -/
theorem Holding.push {st' : Stage} {len' acc' : Half} (b : Byte) (out : FeedOutcome) (h : Holding s t st p len acc)
    (hcap : s.cfg.frameCap ≤ 65539) (hp : p.length < s.cfg.frameCap) :
    Holding s (({ t.fbPush b with pLen := len', pAcc := acc', pStage := st' } : State).finishFeed out)
      st' (p ++ [b]) len' acc' where
  cfg := (finishFeed_cfg ..).trans h.cfg
  loaded := (finishFeed_loaded ..).trans h.loaded
  stage := finishFeed_pStage ..
  idx := by
    rw [finishFeed_pIdx, fbPush_pIdx, h.idx_succ hcap hp, List.length_append, List.length_singleton]
  fb := by
    intro j hj
    have hread : (t.fbPush b).fbByte j = _ := fbByte_of_setByte (fbPush_fb t b) (fbPush_resets t b) j
    refine ((finishFeed_parserSame _ out).fbByte j).trans (hread.trans ?_)
    rw [h.idx]
    rw [List.length_append, List.length_singleton] at hj
    split_ifs with hlast
    · simp [hlast]
    · rw [List.getD_append _ _ _ _ (by omega), h.fb j (by omega)]
  len := finishFeed_pLen ..
  acc := finishFeed_pAcc ..

/-- A byte that a stage stores and answers PENDING to. -/
theorem Holding.take {st' : Stage} {len' acc' : Half} {b : Byte} (h : Holding s t st p len acc)
    (hcap : s.cfg.frameCap ≤ 65539) (hp : p.length < s.cfg.frameCap)
    (hc : FeedCase b t ({ t.fbPush b with pLen := len', pAcc := acc', pStage := st' }, .pending)) :
    ∃ u, Pends s t [b] u ∧ Holding s u st' (p ++ [b]) len' acc' :=
  ⟨_, Pends.single h.loaded hc, h.push b .pending hcap hp⟩

/-! ## The search for sync -/

theorem Searching.discard {b : Byte} (h : Searching s t) (hb : b ≠ 0x42) :
    ∃ u, Pends s t [b] u ∧ Searching s u :=
  ⟨_, Pends.single h.loaded (.discarded h.stage hb), (finishFeed_cfg ..).trans h.cfg,
    (finishFeed_loaded ..).trans h.loaded, (finishFeed_pStage ..).trans h.stage⟩

/-- Bytes with no sync-1 among them are all discarded. -/
theorem Searching.garbage {g : List Byte} (h : Searching s t) (hg : 0x42#8 ∉ g) :
    ∃ u, Pends s t g u ∧ Searching s u := by
  induction g generalizing t with
  | nil => exact ⟨t, Pends.nil s t, h⟩
  | cons b rest ih =>
    rw [List.mem_cons, not_or] at hg
    obtain ⟨u, hu, hs⟩ := h.discard (b := b) (Ne.symm hg.1)
    obtain ⟨v, hv, hs'⟩ := ih hs hg.2
    exact ⟨v, hu.append hv, hs'⟩

theorem Searching.sync1 (h : Searching s t) :
    ∃ u len, Pends s t [0x42] u ∧ Holding s u .awaitSync2 [0x42] len 0x0042 :=
  ⟨_, _, Pends.single h.loaded (.sync1 h.stage rfl), holding_of_sync1 _ h.cfg h.loaded⟩

/-- A second sync-1 takes the place of the first (R142). -/
theorem Holding.resync (h : Holding s t .awaitSync2 [0x42] len acc) (hcap : 32 ≤ s.cfg.frameCap) :
    ∃ u len', feedAll [0x42] t = ([feedOutput s (respWord 0x2 0) none], .next u)
      ∧ Holding s u .awaitSync2 [0x42] len' 0x0042 := by
  have hroom := h.room (show 1 < s.cfg.frameCap by omega)
  refine ⟨_, _, ?_, holding_of_sync1 .invalidSync (u := t.parserReset) h.cfg h.loaded⟩
  rw [feedAll_single (.resync h.stage hroom rfl), feedOutput, h.loaded]
  rfl

theorem Holding.badSync {b : Byte} (h : Holding s t .awaitSync2 [0x42] len acc) (hcap : 32 ≤ s.cfg.frameCap)
    (h1 : b ≠ 0x42) (h2 : b ≠ 0x4D) :
    ∃ u, feedAll [b] t = ([feedOutput s (respWord 0x2 0) none], .next u) ∧ Searching s u := by
  have hroom := h.room (show 1 < s.cfg.frameCap by omega)
  refine ⟨_, ?_, searching_of_parserReset .invalidSync (u := t) h.cfg h.loaded⟩
  rw [feedAll_single (.badSync h.stage hroom h2 h1), feedOutput, h.loaded]
  rfl

/-! ## The header -/

theorem byteSum_concat (p : List Byte) (b : Byte) : addByte (byteSum p) b = byteSum (p ++ [b]) :=
  (byteSum_append p [b]).symm

theorem Holding.sync2 (h : Holding s t .awaitSync2 [0x42] len 0x0042) (hmin : 32 ≤ s.cfg.frameCap)
    (hcap : s.cfg.frameCap ≤ 65539) :
    ∃ u, Pends s t [0x4D] u ∧ Holding s u .readLenHi [0x42, 0x4D] len (byteSum [0x42, 0x4D]) := by
  have hp : 1 < s.cfg.frameCap := by omega
  obtain ⟨u, hu, hh⟩ := h.take hcap hp (.sync2 h.stage (h.room hp) rfl)
  rw [h.acc, fbPush_pLen, h.len] at hh
  exact ⟨u, hu, hh⟩

theorem Holding.lenHi (hi : Byte) (h : Holding s t .readLenHi p len (byteSum p)) (hcap : s.cfg.frameCap ≤ 65539)
    (hp : p.length < s.cfg.frameCap) :
    ∃ u, Pends s t [hi] u ∧ Holding s u .readLenLo (p ++ [hi]) (be16 hi 0x00) (byteSum (p ++ [hi])) := by
  obtain ⟨u, hu, hh⟩ := h.take (b := hi) hcap hp (.lenHi h.stage (h.room hp))
  rw [h.acc, byteSum_concat] at hh
  exact ⟨u, hu, hh⟩

theorem takeLenLo_pLen_of_high {hi lo : Byte} (h : t.pLen = be16 hi 0x00) : (t.takeLenLo lo).pLen = be16 hi lo := by
  rw [takeLenLo_pLen, h, be16_high]

/-- The stage an accepted LEN leads to, by the LEN = 2 policy. -/
def stageAfterLen (cfg : Config) (len : Half) : Stage :=
  if len = 2 ∧ cfg.zeroData = .skipData then .readChecksumHi else .readData

theorem Holding.lenLo {hi : Byte} (lo : Byte) (h : Holding s t .readLenLo p (be16 hi 0x00) (byteSum p))
    (hcap : s.cfg.frameCap ≤ 65539) (hp : p.length < s.cfg.frameCap) (hl : badLength s.cfg (be16 hi lo) = false) :
    ∃ u, Pends s t [lo] u
      ∧ Holding s u (stageAfterLen s.cfg (be16 hi lo)) (p ++ [lo]) (be16 hi lo) (byteSum (p ++ [lo])) := by
  have hlen := takeLenLo_pLen_of_high (lo := lo) h.len
  obtain ⟨u, hu, hh⟩ := h.take (b := lo) hcap hp (.goodLen h.stage (h.room hp) (by rw [hlen, h.cfg]; exact hl))
  rw [hlen, h.cfg, takeLenLo_pAcc, h.acc, byteSum_concat] at hh
  exact ⟨u, hu, hh⟩

theorem Holding.badLen {hi lo : Byte} (h : Holding s t .readLenLo p (be16 hi 0x00) acc)
    (hp : p.length < s.cfg.frameCap) (hl : badLength s.cfg (be16 hi lo) = true) :
    ∃ u, feedAll [lo] t = ([feedOutput s (respWord 0x3 0) none], .next u) ∧ Searching s u := by
  have hlen := takeLenLo_pLen_of_high (lo := lo) h.len
  refine ⟨_, ?_, searching_of_parserReset .invalidLength (u := t.takeLenLo lo) h.cfg h.loaded⟩
  rw [feedAll_single (.badLen h.stage (h.room hp) (by rw [hlen, h.cfg]; exact hl)), feedOutput, h.loaded]
  rfl

/-- From a lone sync-1 to the low byte of LEN. -/
theorem Holding.toLenLo (hi : Byte) (h : Holding s t .awaitSync2 [0x42] len 0x0042) (hmin : 32 ≤ s.cfg.frameCap)
    (hcap : s.cfg.frameCap ≤ 65539) : ∃ u, Pends s t [0x4D, hi] u
      ∧ Holding s u .readLenLo [0x42, 0x4D, hi] (be16 hi 0x00) (byteSum [0x42, 0x4D, hi]) := by
  obtain ⟨u, hu, h2⟩ := h.sync2 hmin hcap
  obtain ⟨v, hv, h3⟩ := h2.lenHi hi hcap (show 2 < s.cfg.frameCap by omega)
  exact ⟨v, hu.append hv, h3⟩

/-- From a lone sync-1 through an accepted LEN. -/
theorem Holding.header (n : Half) (h : Holding s t .awaitSync2 [0x42] len 0x0042) (hmin : 32 ≤ s.cfg.frameCap)
    (hcap : s.cfg.frameCap ≤ 65539) (hn : 2 ≤ n.toNat) (hfit : 4 + n.toNat ≤ s.cfg.frameCap) :
    ∃ u, Pends s t ([0x4D] ++ wireHalf n) u
      ∧ Holding s u (stageAfterLen s.cfg n) (frameHead n []) n (byteSum (frameHead n [])) := by
  have hok : badLength s.cfg n = false := by
    rw [Bool.eq_false_iff, Ne, badLength_iff]
    omega
  obtain ⟨u, hu, h3⟩ := h.toLenLo (n.extractLsb 15 8) hmin hcap
  obtain ⟨v, hv, h4⟩ := h3.lenLo (n.extractLsb 7 0) hcap (show 3 < s.cfg.frameCap by omega)
    (by rw [be16_extract]; exact hok)
  rw [be16_extract] at h4
  exact ⟨v, hu.append hv, h4⟩

/-! ## The data bytes -/

/-- One data byte before the checksum field: it is summed, and the last one ends the data. -/
theorem Holding.data (b : Byte) (h : Holding s t .readData p len (byteSum p)) (hcap : s.cfg.frameCap ≤ 65539)
    (hp : p.length < s.cfg.frameCap) (hoff : p.length < checksumOffset len) :
    ∃ u, Pends s t [b] u
      ∧ Holding s u (if p.length + 1 = checksumOffset len then .readChecksumHi else .readData) (p ++ [b]) len
        (byteSum (p ++ [b])) := by
  have hdone : (t.takeData b).dataComplete = true ↔ p.length + 1 = checksumOffset len := by
    rw [dataComplete_iff, takeData_pIdx, h.idx_succ hcap hp, takeData_pLen, h.len]
    omega
  obtain ⟨u, hu, hh⟩ := h.take (b := b) hcap hp (.data h.stage (h.room hp))
  rw [takeData_pLen, takeData_pAcc, h.len, h.idx, if_pos hoff, h.acc, byteSum_concat] at hh
  simp only [hdone] at hh
  exact ⟨u, hu, hh⟩

/-- All the data bytes, up to the checksum field. -/
theorem Holding.allData {data : List Byte} (h : Holding s t .readData p len (byteSum p)) (hcap : s.cfg.frameCap ≤ 65539)
    (hne : data ≠ []) (hoff : p.length + data.length = checksumOffset len)
    (hfit : checksumOffset len < s.cfg.frameCap) :
    ∃ u, Pends s t data u ∧ Holding s u .readChecksumHi (p ++ data) len (byteSum (p ++ data)) := by
  induction data generalizing t p with
  | nil => exact absurd rfl hne
  | cons d rest ih =>
    rw [List.length_cons] at hoff
    obtain ⟨u, hu, hh⟩ := h.data d hcap (by omega) (by omega)
    by_cases hrest : rest = []
    · subst hrest
      rw [if_pos (by simpa using hoff)] at hh
      exact ⟨u, hu, hh⟩
    · have hpos := List.length_pos_of_ne_nil hrest
      rw [if_neg (by omega)] at hh
      obtain ⟨v, hv, hh'⟩ := ih hh hrest (by rw [List.length_append, List.length_singleton]; omega)
      rw [List.append_assoc] at hh'
      exact ⟨v, hu.append hv, hh'⟩

/-! ## The checksum -/

theorem Holding.checksumHi (hi : Byte) (h : Holding s t .readChecksumHi p len acc) (hcap : s.cfg.frameCap ≤ 65539)
    (hp : p.length < s.cfg.frameCap) : ∃ u, Pends s t [hi] u ∧ Holding s u .readChecksumLo (p ++ [hi]) len acc := by
  obtain ⟨u, hu, hh⟩ := h.take (b := hi) hcap hp (.checksumHi h.stage (h.room hp))
  rw [fbPush_pLen, fbPush_pAcc, h.len, h.acc] at hh
  exact ⟨u, hu, hh⟩

section
variable {hi lo : Byte}

/-- The received checksum is the last two bytes. -/
theorem Holding.receivedChecksum (h : Holding s t .readChecksumLo (p ++ [hi]) len acc) (hcap : s.cfg.frameCap ≤ 65539)
    (hp : p.length + 1 < s.cfg.frameCap) : (t.fbPush lo).receivedChecksum = be16 hi lo := by
  have hlen : (p ++ [hi]).length = p.length + 1 := by simp
  have hidx := h.idx
  rw [hlen] at hidx
  rw [fbPush_receivedChecksum lo (by omega) (h.room (by omega)) (h.cfg ▸ hcap), hidx, Nat.add_sub_cancel,
    h.fb _ (by omega)]
  simp

/-- A mismatch, or a match of a frame too short to be read. -/
theorem Holding.rejected (h : Holding s t .readChecksumLo (p ++ [hi]) len acc) (hcap : s.cfg.frameCap ≤ 65539)
    (hp : p.length + 1 < s.cfg.frameCap) (hno : be16 hi lo = acc → len.toNat < 28) :
    ∃ u, feedAll [lo] t = ([feedOutput s (if be16 hi lo = acc then respWord 0x3 0 else respWord 0x4 0) none], .next u)
      ∧ Searching s u := by
  have hroom := h.room (show (p ++ [hi]).length < s.cfg.frameCap by simpa using hp)
  have hsum := h.receivedChecksum (lo := lo) hcap hp
  have hend (out : FeedOutcome) := searching_of_parserReset out (u := t.fbPush lo) h.cfg h.loaded
  by_cases hc : be16 hi lo = acc
  · refine ⟨_, ?_, hend .invalidLength⟩
    rw [feedAll_single (.shortFrame h.stage hroom (by rw [hsum, h.acc, hc]) (by rw [h.len]; exact hno hc)), if_pos hc,
      feedOutput, h.loaded]
    rfl
  · refine ⟨_, ?_, hend .checksumError⟩
    rw [feedAll_single (.badChecksum h.stage hroom (by rw [hsum, h.acc]; exact hc)), if_neg hc, feedOutput, h.loaded]
    rfl

/-- A match of a frame long enough: OK, with the fields of the bytes held. -/
theorem Holding.accepted (h : Holding s t .readChecksumLo (p ++ [hi]) len acc) (hcap : s.cfg.frameCap ≤ 65539)
    (hp : p.length + 1 < s.cfg.frameCap) (hc : be16 hi lo = acc) (hlen : 28 ≤ len.toNat) (hread : 27 < p.length) :
    ∃ u r, feedAll [lo] t = ([feedOutput s (respWord 0x1 0) (some r)], .next u) ∧ Searching s u
      ∧ ∀ i : Fin 12, r.field i = wireField (p ++ [hi, lo]) i.val := by
  have hroom := h.room (show (p ++ [hi]).length < s.cfg.frameCap by simpa using hp)
  have hsum := h.receivedChecksum (lo := lo) hcap hp
  have hlast : (p ++ [hi]).length = p.length + 1 := by simp
  refine ⟨_, (t.fbPush lo).decodeReading, ?_, searching_of_parserReset (.ok (t.fbPush lo).decodeReading)
    (u := t.fbPush lo) h.cfg h.loaded, fun i => ?_⟩
  · rw [feedAll_single (.validFrame h.stage hroom (by rw [hsum, h.acc, hc]) (by rw [h.len]; exact hlen)), feedOutput,
      h.loaded]
    rfl
  · have hheld (j : Nat) (hj : j < p.length) : (t.fbPush lo).fbByte j = (p ++ [hi, lo]).getD j 0 := by
      rw [fbByte_fbPush_of_ne _ _ (by rw [h.idx]; omega), h.fb j (by omega), List.getD_append _ _ _ _ hj,
        List.getD_append _ _ _ _ hj]
    have := i.isLt
    rw [decodeReading_field, State.fbField, hheld _ (by omega), hheld _ (by omega)]
    rfl

end

end

end Sys2Proof.Machine
end

section
/-! PROOFS. The laws of the parser over whole frames (41_frame_parser.md, laws of the parser). -/

namespace Sys2Proof.Machine

/-! ## A run of sync-1 bytes -/

/-- A 0x42 in AwaitSync2 with one byte held leaves the parser as it found it, but for FB's first byte. -/
theorem exec_feed_resync {s : State} (hs : s.pStage = .awaitSync2) (hi : s.pIdx = 1) (hmin : 32 ≤ s.cfg.frameCap) :
    ∃ t, exec (.feed 0x42) s = .next t ∧ t.output = feedOutput s (respWord 0x2 0) none
      ∧ t.pStage = .awaitSync2 ∧ t.pIdx = 1 ∧ t.pAcc = 0x0042 ∧ t.cfg = s.cfg ∧ t.loaded = s.loaded
      ∧ ∀ j, j ≠ 0 → t.fbByte j = s.fbByte j := by
  have hroom : s.pIdx.toNat < s.cfg.frameCap := by
    rw [hi]
    exact lt_of_lt_of_le (by decide) hmin
  exact ⟨_, (FeedCase.resync hs hroom rfl).exec_eq, rfl, rfl, rfl, rfl, rfl, rfl,
    fun j hj => (fbByte_fbWrite s 0 j 0x42).trans (if_neg hj)⟩

/-- Settles O48, by the number of bytes: each rejected 0x42 leaves the parser as the one before it. -/
theorem runOfSyncBytesDoesNotGrow : Obligations.RunOfSyncBytesDoesNotGrow := by
  unfold Obligations.RunOfSyncBytesDoesNotGrow
  intro k s hs hi ha hmin
  induction k generalizing s with
  | zero => exact ⟨s, rfl, hs, hi, ha, fun _ _ => rfl⟩
  | succ k ih =>
    obtain ⟨t, ht, hout, hs', hi', ha', hcfg, hl, hfb⟩ := exec_feed_resync hs hi hmin
    obtain ⟨u, hu, hs'', hi'', ha'', hfb'⟩ := ih t hs' hi' ha' (hcfg ▸ hmin)
    refine ⟨u, ?_, hs'', hi'', ha'', fun j hj => (hfb' j hj).trans (hfb j hj)⟩
    rw [List.replicate_succ, feedAll_cons _ ht, hu, hout, feedOutput, feedOutput, hl]
    rfl

/-! ## A frame, up to its last byte -/

section
variable {s t : State} {data : List Byte} {len : Half}

theorem frameLen_toNat (h : data.length + 2 < 2 ^ 16) : (frameLen data).toNat = data.length + 2 := by
  rw [frameLen, BitVec.toNat_ofNat]
  omega

theorem frameHead_length (n : Half) (data : List Byte) : (frameHead n data).length = data.length + 4 := by
  simp [frameHead, wireHalf]

/-- From a lone sync-1, a frame of legal length answers PENDING up to its checksum's high byte. -/
theorem Holding.frame (c : Half) (h : Holding s t .awaitSync2 [0x42] len 0x0042) (hmin : 32 ≤ s.cfg.frameCap)
    (hcap : s.cfg.frameCap ≤ 65539) (h1 : 1 ≤ data.length) (hfit : data.length + 6 ≤ s.cfg.frameCap) :
    ∃ u, Pends s t ([0x4D] ++ wireHalf (frameLen data) ++ data ++ [c.extractLsb 15 8]) u
      ∧ Holding s u .readChecksumLo (frameHead (frameLen data) data ++ [c.extractLsb 15 8]) (frameLen data)
        (frameSum data) := by
  have hlen : (frameLen data).toNat = data.length + 2 := frameLen_toNat (by omega)
  have hoff := checksumOffset_eq (frameLen data)
  have hstage : stageAfterLen s.cfg (frameLen data) = .readData := by
    refine if_neg fun ⟨h2, _⟩ => ?_
    have h2' : (frameLen data).toNat = 2 := by rw [h2]; rfl
    omega
  obtain ⟨u, hu, h4⟩ := h.header (frameLen data) hmin hcap (by omega) (by omega)
  rw [hstage] at h4
  have hhead := frameHead_length (frameLen data) []
  obtain ⟨v, hv, h5⟩ := h4.allData hcap (data := data) (List.ne_nil_of_length_pos h1)
    (by rw [hhead, List.length_nil]; omega) (by omega)
  rw [show frameHead (frameLen data) [] ++ data = frameHead (frameLen data) data by simp [frameHead]] at h5
  obtain ⟨w, hw, h6⟩ := h5.checksumHi (c.extractLsb 15 8) hcap (by rw [frameHead_length]; omega)
  exact ⟨w, (hu.append hv).append hw, h6⟩

/-- The last byte, with the valid checksum: OK. -/
theorem Holding.validEnd (h : Holding s t .readChecksumLo
      (frameHead (frameLen data) data ++ [(frameSum data).extractLsb 15 8]) (frameLen data) (frameSum data))
    (hcap : s.cfg.frameCap ≤ 65539) (h26 : 26 ≤ data.length) (hfit : data.length + 6 ≤ s.cfg.frameCap) :
    ∃ u r, feedAll [(frameSum data).extractLsb 7 0] t = ([feedOutput s (respWord 0x1 0) (some r)], .next u)
      ∧ Searching s u ∧ ∀ i : Fin 12, r.field i = wireField (wireFrame data) i.val := by
  have hhead := frameHead_length (frameLen data) data
  exact h.accepted hcap (by omega) (be16_extract _) (by rw [frameLen_toNat (by omega)]; omega) (by omega)

/-- The last byte, with any other checksum: CHECKSUM_ERROR. -/
theorem Holding.invalidEnd {c : Half} (h : Holding s t .readChecksumLo
      (frameHead (frameLen data) data ++ [c.extractLsb 15 8]) (frameLen data) (frameSum data))
    (hcap : s.cfg.frameCap ≤ 65539) (hfit : data.length + 6 ≤ s.cfg.frameCap) (hc : c ≠ frameSum data) :
    ∃ u, feedAll [c.extractLsb 7 0] t = ([feedOutput s (respWord 0x4 0) none], .next u) ∧ Searching s u := by
  have hhead := frameHead_length (frameLen data) data
  have hne : be16 (c.extractLsb 15 8) (c.extractLsb 7 0) ≠ frameSum data := by rwa [be16_extract]
  obtain ⟨u, hu, hend⟩ := h.rejected hcap (by omega) fun he => absurd he hne
  rw [if_neg hne] at hu
  exact ⟨u, hu, hend⟩

/-- The bytes of a frame after its sync-1 and before its last byte. -/
theorem frameWith_eq (data : List Byte) (c : Half) : frameWith data c =
    [0x42] ++ ([0x4D] ++ wireHalf (frameLen data) ++ data ++ [c.extractLsb 15 8]) ++ [c.extractLsb 7 0] := by
  simp [frameWith, frameHead, wireHalf]

/-- From the search for sync, the same. -/
theorem Searching.frame (c : Half) (h : Searching s t) (hmin : 32 ≤ s.cfg.frameCap) (hcap : s.cfg.frameCap ≤ 65539)
    (h1 : 1 ≤ data.length) (hfit : data.length + 6 ≤ s.cfg.frameCap) :
    ∃ u, Pends s t ([0x42] ++ ([0x4D] ++ wireHalf (frameLen data) ++ data ++ [c.extractLsb 15 8])) u
      ∧ Holding s u .readChecksumLo (frameHead (frameLen data) data ++ [c.extractLsb 15 8]) (frameLen data)
        (frameSum data) := by
  obtain ⟨u, len, hu, hsync⟩ := h.sync1
  obtain ⟨v, hv, hlast⟩ := hsync.frame (data := data) c hmin hcap h1 hfit
  exact ⟨v, hu.append hv, hlast⟩

theorem Searching.validFrame (h : Searching s t) (hmin : 32 ≤ s.cfg.frameCap) (hcap : s.cfg.frameCap ≤ 65539)
    (h26 : 26 ≤ data.length) (hfit : data.length + 6 ≤ s.cfg.frameCap) :
    ∃ u r, feedAll (wireFrame data) t
        = (List.replicate (data.length + 5) (feedOutput s (respWord 0x0 0) none)
            ++ [feedOutput s (respWord 0x1 0) (some r)], .next u)
      ∧ Searching s u ∧ ∀ i : Fin 12, r.field i = wireField (wireFrame data) i.val := by
  obtain ⟨v, hv, hlast⟩ := h.frame (data := data) (frameSum data) hmin hcap (by omega) hfit
  obtain ⟨u, r, hu, hend, hr⟩ := hlast.validEnd hcap h26 hfit
  refine ⟨u, r, ?_, hend, hr⟩
  rw [wireFrame, frameWith_eq, hv.then hu]
  congr 3
  simp [wireHalf]

theorem Searching.invalidFrame {c : Half} (h : Searching s t) (hmin : 32 ≤ s.cfg.frameCap)
    (hcap : s.cfg.frameCap ≤ 65539) (h1 : 1 ≤ data.length) (hfit : data.length + 6 ≤ s.cfg.frameCap)
    (hc : c ≠ frameSum data) :
    ∃ u, feedAll (frameWith data c) t
        = (List.replicate (data.length + 5) (feedOutput s (respWord 0x0 0) none)
            ++ [feedOutput s (respWord 0x4 0) none], .next u)
      ∧ Searching s u := by
  obtain ⟨v, hv, hlast⟩ := h.frame (data := data) c hmin hcap h1 hfit
  obtain ⟨u, hu, hend⟩ := hlast.invalidEnd hcap hfit hc
  refine ⟨u, ?_, hend⟩
  rw [frameWith_eq, hv.then hu]
  congr 3
  simp [wireHalf]

end

/-- Settles O49: the frame up to its last byte, then the checksum's two outcomes. -/
theorem validFrameIsReadBack : Obligations.ValidFrameIsReadBack := by
  unfold Obligations.ValidFrameIsReadBack
  intro s data c hc hs h26 hfit
  obtain ⟨-, hmin, hcap, -⟩ := (legal_iff _).1 hc
  have hsearch := Searching.refl hs
  refine ⟨?_, fun hne => ?_⟩
  · obtain ⟨u, r, hu, hend, hr⟩ := hsearch.validFrame hmin hcap h26 hfit
    exact ⟨u, r, hu, hend.stage, hr⟩
  · obtain ⟨u, hu, hend⟩ := hsearch.invalidFrame hmin hcap (by omega) hfit hne
    exact ⟨u, hu, hend.stage⟩

/-- Settles O50: the garbage is discarded and the lone sync-1 taken; the next byte is rejected, as a new sync-1 or back
to the search, and the frame follows from there. -/
theorem parserResynchronisesOnAFreshFrame : Obligations.ParserResynchronisesOnAFreshFrame := by
  unfold Obligations.ParserResynchronisesOnAFreshFrame
  intro s garbage data x hc hs hg hx1 hx2 h26 hfit
  obtain ⟨-, hmin, hcap, -⟩ := (legal_iff _).1 hc
  obtain ⟨t, ht, hsearch⟩ := (Searching.refl hs).garbage hg
  obtain ⟨u, len, hu, hsync⟩ := hsearch.sync1
  have hlone := ht.append hu
  constructor
  · obtain ⟨v, len', hv, hsync'⟩ := hsync.resync hmin
    obtain ⟨w, hw, hlast⟩ := hsync'.frame (data := data) (frameSum data) hmin hcap (by omega) hfit
    obtain ⟨z, r, hz, -, hr⟩ := hlast.validEnd hcap h26 hfit
    refine ⟨z, r, ?_, hr⟩
    rw [wireFrame, frameWith_eq, List.append_assoc [0x42], hlone.then (feedAll_trans hv (hw.then hz))]
    simp [wireHalf]
  · obtain ⟨v, hv, hsearch'⟩ := hsync.badSync hmin hx1 hx2
    obtain ⟨w, r, hw, -, hr⟩ := hsearch'.validFrame hmin hcap h26 hfit
    refine ⟨w, r, ?_, hr⟩
    rw [show garbage ++ [0x42, x] ++ wireFrame data = garbage ++ [0x42] ++ ([x] ++ wireFrame data) by simp,
      hlone.then (feedAll_trans hv hw)]
    simp

/-! ## One byte changed -/

theorem foldl_addByte (acc : Half) (bs : List Byte) : bs.foldl addByte acc = acc + byteSum bs := by
  induction bs generalizing acc with
  | nil => simp [byteSum]
  | cons b rest ih => rw [byteSum, List.foldl_cons, List.foldl_cons, ih, ih, addByte, addByte, zero_add, add_assoc]

/-- The sum tells every byte: with the others fixed it is the byte, zero-extended, and a constant. -/
theorem byteSum_middle_inj {pre post : List Byte} {x y : Byte}
    (h : byteSum (pre ++ x :: post) = byteSum (pre ++ y :: post)) : x = y := by
  simp only [byteSum_append, List.foldl_cons, foldl_addByte, addByte, add_assoc] at h
  have h' := add_right_cancel (add_left_cancel h)
  have hx := x.isLt
  have hy := y.isLt
  rw [← BitVec.toNat_inj, BitVec.toNat_setWidth, BitVec.toNat_setWidth] at h'
  exact BitVec.eq_of_toNat_eq (by omega)

/-- Another byte in one place gives another frame sum. -/
theorem frameSum_set_ne {data : List Byte} {k : Nat} {x : Byte} (hk : k < data.length) (hx : x ≠ data.getD k 0) :
    frameSum data ≠ frameSum (data.set k x) := by
  intro h
  have hlen : frameLen (data.set k x) = frameLen data := by simp [frameLen]
  have hset : data.set k x = data.take k ++ x :: data.drop (k + 1) := List.set_eq_take_append_cons_drop .. |>.trans
    (if_pos hk)
  have hself : data = data.take k ++ data.getD k 0 :: data.drop (k + 1) := by
    rw [List.getD_eq_getElem _ _ hk, List.getElem_cons_drop, List.take_append_drop]
  rw [frameSum, frameSum, hlen, hset, frameHead, frameHead] at h
  nth_rw 2 [hself] at h
  rw [← List.append_assoc, ← List.append_assoc] at h
  exact hx (byteSum_middle_inj h).symm

/-- A flipped bit changes the byte. -/
theorem xor_bit_ne (b : Byte) {j : Nat} (hj : j < 8) : b ^^^ (1#8 <<< j) ≠ b := by
  intro h
  have hzero : 1#8 <<< j = 0 := by
    calc 1#8 <<< j = b ^^^ (b ^^^ (1#8 <<< j)) := by rw [← BitVec.xor_assoc, BitVec.xor_self, BitVec.zero_xor]
      _ = 0 := by rw [h, BitVec.xor_self]; rfl
  interval_cases j <;> exact absurd hzero (by decide)

/-- Settles O51: the flipped frame is a frame of the same length with a checksum that is not its sum. -/
theorem flippedDataBitGivesChecksumError : Obligations.FlippedDataBitGivesChecksumError := by
  unfold Obligations.FlippedDataBitGivesChecksumError
  intro s data k j hc hs h26 hfit hk hj
  obtain ⟨-, hmin, hcap, -⟩ := (legal_iff _).1 hc
  have hne := frameSum_set_ne hk (xor_bit_ne (data.getD k 0) hj)
  have hlen : (data.set k (data.getD k 0 ^^^ (1#8 <<< j))).length = data.length := List.length_set
  obtain ⟨u, hu, hend⟩ := (Searching.refl hs).invalidFrame hmin hcap (by omega) (by omega) hne
  rw [hlen] at hu
  exact ⟨u, hu, hend.stage⟩

/-- Settles O52: each flip is a byte that its stage rejects, and the length check refuses the LEN. -/
theorem flippedSyncByteOrFailingLenEndsInSyncSearch : Obligations.FlippedSyncByteOrFailingLenEndsInSyncSearch := by
  unfold Obligations.FlippedSyncByteOrFailingLenEndsInSyncSearch
  intro s j len hc hs hj
  obtain ⟨-, hmin, hcap, -⟩ := (legal_iff _).1 hc
  have hsearch := Searching.refl hs
  obtain ⟨u, l, hu, hsync⟩ := hsearch.sync1
  refine ⟨?_, ?_, fun hbad => ?_⟩
  · obtain ⟨t, ht, hend⟩ := hsearch.discard (xor_bit_ne 0x42 hj)
    exact ⟨t, ht, hend.stage⟩
  · have hsync1 : 0x4D#8 ^^^ (1#8 <<< j) ≠ 0x42 := by interval_cases j <;> decide
    obtain ⟨t, ht, hend⟩ := hsync.badSync hmin hsync1 (xor_bit_ne 0x4D hj)
    exact ⟨t, hu.then ht, hend.stage⟩
  · obtain ⟨v, hv, h3⟩ := hsync.toLenLo (len.extractLsb 15 8) hmin hcap
    obtain ⟨t, ht, hend⟩ := h3.badLen (lo := len.extractLsb 7 0) (show 3 < s.cfg.frameCap by omega)
      (by rw [be16_extract]; exact (badLength_iff _ _).2 hbad)
    exact ⟨t, (hu.append hv).then ht, hend.stage⟩

/-! ## LEN = 2 -/

section
variable {s t : State} {p : List Byte} {acc : Half}

/-- Up to an accepted LEN = 2, whose header sums to 0x0091. -/
theorem Searching.zeroDataHeader (h : Searching s t) (hmin : 32 ≤ s.cfg.frameCap) (hcap : s.cfg.frameCap ≤ 65539) :
    ∃ u, Pends s t [0x42, 0x4D, 0x00, 0x02] u
      ∧ Holding s u (stageAfterLen s.cfg 2) [0x42, 0x4D, 0x00, 0x02] 2 0x0091 := by
  obtain ⟨u, len, hu, hsync⟩ := h.sync1
  obtain ⟨v, hv, h4⟩ := hsync.header 2 hmin hcap le_rfl (show 4 + 2 ≤ s.cfg.frameCap by omega)
  exact ⟨v, hu.append hv, h4⟩

/-- A data byte of a LEN = 2 frame is stored and not summed; ONE_BYTE_DATA ends the data with it. -/
theorem Holding.unsummedByte (b : Byte) (h : Holding s t .readData p 2 acc) (hcap : s.cfg.frameCap ≤ 65539)
    (hp : p.length < s.cfg.frameCap) (h4 : 4 ≤ p.length) :
    ∃ u, Pends s t [b] u
      ∧ Holding s u (if s.cfg.zeroData = .oneByteData then .readChecksumHi else .readData) (p ++ [b]) 2 acc := by
  have hoff : checksumOffset 2 = 4 := rfl
  have hdone : (t.takeData b).dataComplete = true ↔ s.cfg.zeroData = .oneByteData := by
    rw [dataComplete_iff, takeData_pIdx, h.idx_succ hcap hp, takeData_pLen, h.len, takeData_cfg, h.cfg, hoff]
    exact ⟨fun hd => (hd.resolve_left (by omega)).1, fun hpol => .inr ⟨hpol, by omega⟩⟩
  obtain ⟨u, hu, hh⟩ := h.take (b := b) hcap hp (.data h.stage (h.room hp))
  rw [takeData_pLen, takeData_pAcc, h.len, h.idx, hoff, if_neg (Nat.not_lt.2 h4), h.acc] at hh
  simp only [hdone] at hh
  exact ⟨u, hu, hh⟩

/-- Under STALL_IN_DATA the stage stores on and on, as long as there is room. -/
theorem Holding.stall {fill : List Byte} (h : Holding s t .readData p 2 acc) (hcap : s.cfg.frameCap ≤ 65539)
    (h4 : 4 ≤ p.length) (hfit : p.length + fill.length ≤ s.cfg.frameCap) (hpol : s.cfg.zeroData = .stallInData) :
    ∃ u, Pends s t fill u ∧ Holding s u .readData (p ++ fill) 2 acc := by
  induction fill generalizing t p with
  | nil => exact ⟨t, Pends.nil s t, by rwa [List.append_nil]⟩
  | cons b rest ih =>
    rw [List.length_cons] at hfit
    have hlen : (p ++ [b]).length = p.length + 1 := by simp
    obtain ⟨u, hu, hh⟩ := h.unsummedByte b hcap (by omega) h4
    rw [if_neg (by rw [hpol]; decide)] at hh
    obtain ⟨v, hv, hh'⟩ := ih hh (by omega) (by omega)
    rw [List.append_assoc] at hh'
    exact ⟨v, hu.append hv, hh'⟩

/-- A full frame buffer: the byte is dropped and the parser reset. -/
theorem Holding.overflow (b : Byte) (h : Holding s t .readData p 2 acc) (hfull : p.length = s.cfg.frameCap) :
    ∃ u, feedAll [b] t = ([feedOutput s (respWord 0x5 0) none], .next u) ∧ Searching s u ∧ u.pIdx = 0 := by
  refine ⟨_, ?_, searching_of_parserReset .bufferOverflow (u := t) h.cfg h.loaded, rfl⟩
  rw [feedAll_single (.dropped (by rw [h.stage]; decide) (by rw [h.idx, h.cfg, hfull])), feedOutput, h.loaded]
  rfl

/-- The checksum of a frame too short to be read. -/
theorem Holding.shortEnd (c : Half) (h : Holding s t .readChecksumHi p 2 acc) (hcap : s.cfg.frameCap ≤ 65539)
    (hp : p.length + 1 < s.cfg.frameCap) :
    ∃ u, feedAll (wireHalf c) t = ([feedOutput s (respWord 0x0 0) none,
        feedOutput s (if c = acc then respWord 0x3 0 else respWord 0x4 0) none], .next u)
      ∧ Searching s u := by
  obtain ⟨v, hv, hlast⟩ := h.checksumHi (c.extractLsb 15 8) hcap (by omega)
  obtain ⟨u, hu, hend⟩ := hlast.rejected (lo := c.extractLsb 7 0) hcap hp fun _ => by decide
  rw [be16_extract] at hu
  exact ⟨u, hv.then hu, hend⟩

end

/-- Settles O53, policy by policy. -/
theorem zeroDataPoliciesDifferAsTabled : Obligations.ZeroDataPoliciesDifferAsTabled := by
  unfold Obligations.ZeroDataPoliciesDifferAsTabled
  intro s d c fill last hc hs
  obtain ⟨-, hmin, hcap, -⟩ := (legal_iff _).1 hc
  obtain ⟨t, ht, h4⟩ := (Searching.refl hs).zeroDataHeader hmin hcap
  refine ⟨fun hpol => ?_, fun hpol => ?_, fun hpol hfill => ?_⟩
  · rw [stageAfterLen, if_pos ⟨rfl, hpol⟩] at h4
    obtain ⟨u, hu, hend⟩ := h4.shortEnd c hcap (show 4 + 1 < s.cfg.frameCap by omega)
    exact ⟨u, ht.then hu, hend.stage⟩
  · rw [stageAfterLen, if_neg (by rw [hpol]; decide)] at h4
    obtain ⟨v, hv, h5⟩ := h4.unsummedByte d hcap (show 4 < s.cfg.frameCap by omega) le_rfl
    rw [if_pos hpol] at h5
    obtain ⟨u, hu, hend⟩ := h5.shortEnd c hcap (show 5 + 1 < s.cfg.frameCap by omega)
    exact ⟨u, (ht.append hv).then hu, hend.stage⟩
  · rw [stageAfterLen, if_neg (by rw [hpol]; decide)] at h4
    obtain ⟨v, hv, hfull⟩ := h4.stall (fill := fill) hcap le_rfl (show 4 + fill.length ≤ s.cfg.frameCap by omega) hpol
    obtain ⟨u, hu, hend, hidx⟩ := hfull.overflow last (by rw [← hfill, List.length_append]; exact add_comm _ _)
    refine ⟨u, ?_, hend.stage, hidx⟩
    rw [(ht.append hv).then hu, ← hfill, List.length_append, add_comm]
    rfl

end Sys2Proof.Machine
end
